-- ==== Sys2Proof/Word.lean ====
section
/-! DEFINITION. The bit-vector types of the triforce framing core (00_scope.md R14: every value the block computes is
an unsigned bit vector). Nothing here computes: field extraction and arithmetic stand in Decode.lean and Machine/. -/

namespace Sys2Proof

/-- One ring byte, 8 bits (10_state.md R15). -/
abbrev Byte := BitVec 8

/-- A command word, or one 32-bit record field (30_encoding.md R48, 10_state.md R19). -/
abbrev Word := BitVec 32

/-- A 12-bit ring offset: the field OFF of a command, the cursor `pos`, the register `foff`
(30_encoding.md R48, 10_state.md R17, R20). -/
abbrev Offset := BitVec 12

end Sys2Proof
end

