-- ==== Sys2Proof/Config.lean ====
section
/-! DEFINITION. What is fixed for a machine (00_scope.md section 4) and the free values the spec leaves open.
The parameters a model must be able to vary (N, MODE, RING_RESET_FILL) are fields of `Config`; the unaudited literals
are named constants (log entry 13); the open parameters F_CLK and LATENCY, the Source's answers, the ARBITRARY ring bytes and a status
output sampled in mid-operation are opaque constants, so that no proof can see a value of them. -/

namespace Sys2Proof

/-- The MODE strap (00_scope.md R9). -/
inductive Mode where
  /-- The framing state machine runs cycles on its own at the cadence. -/
  | auto
  /-- Only the host's commands run. -/
  | cmd
deriving DecidableEq, Repr

/-- RING_RESET_FILL: the ring's contents after reset (00_scope.md R10). -/
inductive RingFill where
  /-- Every byte is 0x00: this hardware. -/
  | zero
  /-- Every byte is a free draw. -/
  | arbitrary
deriving DecidableEq, Repr

/-- One answer of the Source to a read (43_framing_fsm.md R80): a list of bytes in the order received, or ERROR. -/
inductive SourceAnswer where
  | bytes (bs : List Byte)
  | error
deriving DecidableEq, Repr, Inhabited

/-- The parameters a model takes as configuration (00_scope.md R3, R9, R10). No step changes `n` or `fill`; only
reset changes `mode`, by sampling the strap (70_reset_and_hazards.md R110). Log entries 1 and 2. -/
structure Config where
  /-- N, the ring capacity in bytes. -/
  n : Nat
  /-- MODE, the value last sampled from the strap. -/
  mode : Mode
  /-- RING_RESET_FILL. -/
  fill : RingFill
deriving DecidableEq, Repr

namespace Config

/-- The range of N a model may take: `4 <= N <= 4096` (00_scope.md R3; 92_eei_decisions.md D24). -/
abbrev wf (c : Config) : Prop := 4 ≤ c.n ∧ c.n ≤ 4096

/-- N of this hardware (00_scope.md R3). -/
def capacity : Nat := 4096

/-- This hardware with the strap at a given value: N = 4096, RING_RESET_FILL = ZERO (00_scope.md, parameter summary). -/
def hardware (m : Mode) : Config := { n := capacity, mode := m, fill := .zero }

/-- SIG, byte 0 first (00_scope.md R4). -/
def sig : List Byte := [0x7F, 0xF0, 0x1C, 0xAF]

/-- FRAME_LEN, the length of a frame in bytes (00_scope.md R5). -/
def frameLen : Nat := 20

/-- SCAN_COUNT = N - 3, the number of start offsets one scan tests (00_scope.md R6). -/
def scanCount (c : Config) : Nat := c.n - 3

/-- MAX_BATCH = N, the most bytes one Source read delivers (00_scope.md R7). -/
def maxBatch (c : Config) : Nat := c.n

/-- T_CYCLE in milliseconds (00_scope.md R8). -/
def tCycleMs : Nat := 80

/-- F_CLK, open (00_scope.md R11): how many clock ticks a number of milliseconds takes. A free value, log entry 5. -/
opaque ticksOf : Nat → Nat

/-- The tick count of one cadence period (60_exceptions.md R103). -/
def cadenceTicks : Nat := ticksOf tCycleMs

/-- LATENCY, open (00_scope.md R11, 70_reset_and_hazards.md R116): the clock ticks an operation takes, a fresh draw for
each operation. A free value, log entry 5. -/
opaque latency : Nat → Nat

/-- The Source's answer to a read for which the state holds no answer yet: a free draw for each cycle
(43_framing_fsm.md R80; 93_implementation_defined.md I2). Log entry 3. -/
opaque freeAnswer : Nat → SourceAnswer

/-- The ring byte at an offset after the reset of a given draw, under RING_RESET_FILL = ARBITRARY
(10_state.md R15; 93_implementation_defined.md I1). Log entry 6. -/
opaque resetByte : (draw : Nat) → (offset : Nat) → Byte

/-- What a status output of width `w` shows where `cmd_ready` is 0: any value (70_reset_and_hazards.md R114;
93_implementation_defined.md I9). Log entry 7. -/
opaque busySample : (w : Nat) → (port : Nat) → (draw : Nat) → BitVec w

end Config

end Sys2Proof
end

