-- ==== Sys2Proof/Syntax.lean ====
section
/-! DEFINITION. The commands of the block, one constructor per row of spec/opcode_table.json (30_encoding.md R49), and the
causes of an illegal command (60_exceptions.md R96). -/

namespace Sys2Proof

/-- The seven commands of the command port (30_encoding.md R49). -/
inductive Instr where
  /-- NOP, OP = 0: do nothing (43_framing_fsm.md R77). -/
  | nop
  /-- APPEND, OP = 1: append one byte, field DATA (40_accumulator.md R61). -/
  | append (b : Byte)
  /-- PEEK, OP = 2: read the ring byte at the offset in field OFF (40_accumulator.md R62). -/
  | peek (o : Offset)
  /-- FIND, OP = 3: scan from the cursor and report (41_detector.md R70). -/
  | find
  /-- DECODE, OP = 4: decode the 20-byte window at the offset in field OFF (42_decoder.md R76). -/
  | decode (o : Offset)
  /-- FRAME, OP = 5: scan once; on a match decode, publish and advance (43_framing_fsm.md R78). -/
  | frame
  /-- CYCLE, OP = 6: one full processing cycle (43_framing_fsm.md R79). -/
  | cycle
deriving DecidableEq, Repr

/-- Why a command word is illegal (60_exceptions.md R96). Codes 0 and 5 to 7 name no cause. -/
inductive IllegalCause where
  /-- Cause 1, RESERVED_OP: OP is 7 to 15. -/
  | reservedOp
  /-- Cause 2, NONZERO_UNUSED: RSV, or a field the opcode does not use, is nonzero. -/
  | nonzeroUnused
  /-- Cause 3, OFF_RANGE: OFF >= N for PEEK or DECODE. -/
  | offRange
  /-- Cause 4, MODE_FORBIDDEN: an opcode other than NOP or PEEK while MODE = AUTO. -/
  | modeForbidden
deriving DecidableEq, Repr

end Sys2Proof
end

