-- ==== Sys2Proof/WellFormed.lean ====
section
/-! DEFINITION. Which commands are legal for a capacity and a mode: the two checks that are not about the encoding
(30_encoding.md R51, the checks of causes 3 and 4). An ill-formed command is still a term of `Instr`; it is refused with
its cause. The widths of the operands (8 and 12 bits) are in their types. -/

namespace Sys2Proof.Instr

/-- The check of cause 3: the offset of PEEK and DECODE is below N (30_encoding.md R51). -/
def offsetInRange (n : Nat) : Instr → Bool
  | .nop => true
  | .append _ => true
  | .peek o => decide (o.toNat < n)
  | .find => true
  | .decode o => decide (o.toNat < n)
  | .frame => true
  | .cycle => true

/-- The check of cause 4: in AUTO only NOP and PEEK are legal (30_encoding.md R51, 92_eei_decisions.md D11). -/
def allowedIn (m : Mode) : Instr → Bool
  | .nop => true
  | .append _ => m = .cmd
  | .peek _ => true
  | .find => m = .cmd
  | .decode _ => m = .cmd
  | .frame => m = .cmd
  | .cycle => m = .cmd

/-- A command that the command port accepts as legal for capacity `n` in mode `m`. -/
def wf (n : Nat) (m : Mode) (i : Instr) : Bool := i.offsetInRange n && i.allowedIn m

end Sys2Proof.Instr
end

