-- ==== Sys2Proof/Decode.lean ====
section
/-! DEFINITION. Decoding a command word (30_encoding.md R48 to R52), total on every 32-bit word and rejecting by cause,
and after it the encoder. -/

namespace Sys2Proof

/-- The code of a cause in the register `illc` (60_exceptions.md R96). -/
def IllegalCause.code : IllegalCause → BitVec 3
  | .reservedOp => 1
  | .nonzeroUnused => 2
  | .offRange => 3
  | .modeForbidden => 4

/-- Field OP, bits 31:28 (30_encoding.md R48). -/
def fieldOp (w : Word) : BitVec 4 := w.extractLsb' 28 4

/-- Field OFF, bits 27:16 (30_encoding.md R48). -/
def fieldOff (w : Word) : Offset := w.extractLsb' 16 12

/-- Field RSV, bits 15:8 (30_encoding.md R48). -/
def fieldRsv (w : Word) : Byte := w.extractLsb' 8 8

/-- Field DATA, bits 7:0 (30_encoding.md R48). -/
def fieldData (w : Word) : Byte := w.extractLsb' 0 8

/-- The command an opcode below 7 stands for, with its operand fields (30_encoding.md R49); `none` for the reserved
opcodes 7 to 15. -/
def instrOf (op : BitVec 4) (off : Offset) (data : Byte) : Option Instr :=
  match op.toNat with
  | 0 => some .nop
  | 1 => some (.append data)
  | 2 => some (.peek off)
  | 3 => some .find
  | 4 => some (.decode off)
  | 5 => some .frame
  | 6 => some .cycle
  | _ => none

/-- Some field that the command does not use is nonzero (30_encoding.md R50, R51): RSV for every opcode; OFF and DATA for
NOP, FIND, FRAME and CYCLE; OFF for APPEND; DATA for PEEK and DECODE. -/
def nonzeroUnusedField (off : Offset) (rsv data : Byte) : Instr → Bool
  | .nop => rsv != 0 || off != 0 || data != 0
  | .append _ => rsv != 0 || off != 0
  | .peek _ => rsv != 0 || data != 0
  | .find => rsv != 0 || off != 0 || data != 0
  | .decode _ => rsv != 0 || data != 0
  | .frame => rsv != 0 || off != 0 || data != 0
  | .cycle => rsv != 0 || off != 0 || data != 0

/-- The causes 3 and 4, in that order (30_encoding.md R51; 60_exceptions.md R99): what makes a command that is well
encoded illegal for capacity `n` in mode `m`. -/
def Instr.illegalIn (n : Nat) (m : Mode) (i : Instr) : Option IllegalCause :=
  if !i.offsetInRange n then some .offRange
  else if !i.allowedIn m then some .modeForbidden
  else none

/-- `decode_cmd` of 30_encoding.md R51: the command of a word, or the first failing check in the order of causes
1, 2, 3, 4. -/
def decodeCmd (n : Nat) (m : Mode) (w : Word) : Except IllegalCause Instr :=
  match instrOf (fieldOp w) (fieldOff w) (fieldData w) with
  | none => .error .reservedOp
  | some i =>
    if nonzeroUnusedField (fieldOff w) (fieldRsv w) (fieldData w) i then .error .nonzeroUnused
    else
      match i.illegalIn n m with
      | some c => .error c
      | none => .ok i

/-- The 32-bit word of an instruction whose bits are `w`, the bits above `nbits` zero. A command is one word on a
parallel port, with no byte order (20_memory.md R32). -/
def tableWord (nbits w : Nat) : Word := BitVec.ofNat 32 (w % 2 ^ nbits)

/-- The command the port's decoder reads from a row's word, on this hardware in CMD mode; none where it refuses. -/
def decodeTableWord (nbits w : Nat) : Option Instr :=
  if 32 < nbits then none
  else
    match decodeCmd Config.capacity .cmd (tableWord nbits w) with
    | .ok i => some i
    | .error _ => none

/-! ### The encoder, and the opcode table of 30_encoding.md R49 as data -/

/-- A command word put together from its four fields (30_encoding.md R48). -/
def packFields (op : BitVec 4) (off : Offset) (rsv data : Byte) : Word :=
  (op.setWidth 32 <<< 28) ||| (off.setWidth 32 <<< 16) ||| (rsv.setWidth 32 <<< 8) ||| data.setWidth 32

/-- The opcode of a command (30_encoding.md R49). -/
def Instr.opcode : Instr → BitVec 4
  | .nop => 0
  | .append _ => 1
  | .peek _ => 2
  | .find => 3
  | .decode _ => 4
  | .frame => 5
  | .cycle => 6

/-- The word of a command: its opcode and operand, every field it does not use zero (30_encoding.md R49, R50, R53). -/
def encode : Instr → Word
  | .nop => packFields 0 0 0 0
  | .append b => packFields 1 0 0 b
  | .peek o => packFields 2 o 0 0
  | .find => packFields 3 0 0 0
  | .decode o => packFields 4 o 0 0
  | .frame => packFields 5 0 0 0
  | .cycle => packFields 6 0 0 0

/-- One row of the table of 30_encoding.md R49: a word selects the row when `word &&& mask = pattern`. -/
structure OpcodeRow where
  pattern : Word
  mask : Word
deriving DecidableEq, Repr

/-- A word selects a row (30_encoding.md R49). -/
def OpcodeRow.selects (r : OpcodeRow) (w : Word) : Prop := w &&& r.mask = r.pattern

/-- The row of a command, as the table of 30_encoding.md R49 prints its match and mask. -/
def Instr.row : Instr → OpcodeRow
  | .nop => ⟨0x00000000, 0xFFFFFFFF⟩
  | .append _ => ⟨0x10000000, 0xFFFFFF00⟩
  | .peek _ => ⟨0x20000000, 0xF000FFFF⟩
  | .find => ⟨0x30000000, 0xFFFFFFFF⟩
  | .decode _ => ⟨0x40000000, 0xF000FFFF⟩
  | .frame => ⟨0x50000000, 0xFFFFFFFF⟩
  | .cycle => ⟨0x60000000, 0xFFFFFFFF⟩

/-- The seven rows of 30_encoding.md R49, in order of opcode. -/
def opcodeTable : List OpcodeRow :=
  [Instr.nop.row, (Instr.append 0).row, (Instr.peek 0).row, Instr.find.row, (Instr.decode 0).row, Instr.frame.row,
    Instr.cycle.row]

end Sys2Proof
end

