-- ==== Sys2Proof/Machine/State.lean ====
section
/-! DEFINITION. The state of the block as plain data: every register of 10_state.md's summary table, the ring, the
sequencer and the cadence timer; the configuration; what stands on the block's input ports; the published records; and
the reasons a step can stop. -/

namespace Sys2Proof.Machine

/-- The ring's contents: (offset, byte) pairs, offsets strictly rising, no entry equal to what an unlisted offset reads
as (`Memory.wf` in Machine/Ops.lean). -/
abbrev Memory := List Host.Cell

/-- A decoded record (10_state.md R19): four 32-bit patterns; `x`, `y` and `z` are never converted to numbers. -/
structure Record where
  count : Word
  x : Word
  y : Word
  z : Word
deriving DecidableEq, Repr

/-- The sequencer's program counter (10_state.md R25). -/
inductive Phase where
  | idle
  | ingest
  | scan
  | publish
deriving DecidableEq, Repr

/-- The cadence timer (10_state.md R26): the clock ticks since the current cycle began, or expired: the next AUTO cycle
may start. Timing only. -/
inductive CadenceTimer where
  | expired
  | running (ticks : Nat)
deriving DecidableEq, Repr

/-- What the host does at the command port (30_encoding.md R46), in time order. An input, outside the block. -/
inductive HostEvent where
  /-- `cmd_valid = 1` with this word, held steady until the transfer (70_reset_and_hazards.md R113). -/
  | command (w : Word)
  /-- The host offers nothing for this many clock ticks, or until the next AUTO cycle is due, whichever comes first. -/
  | idle (ticks : Nat)
deriving DecidableEq, Repr

/-- What happens at the pins `rst` and `mode` (30_encoding.md R46), in time order, whatever the command port and the cycles
do. An input, outside the block. -/
inductive PinEvent where
  /-- One operation starts with `rst = 0`. -/
  | steady
  /-- The host drives the `mode` strap to this value (70_reset_and_hazards.md R110). -/
  | strap (m : Mode)
  /-- `rst = 1` at a rising edge (70_reset_and_hazards.md R108). -/
  | reset
deriving DecidableEq, Repr

/-- The machine. -/
structure State where
  /-- N, MODE and RING_RESET_FILL (00_scope.md R3, R9, R10). -/
  cfg : Config
  /-- The value at the `mode` pin (30_encoding.md R46). -/
  strap : Mode
  /-- The ring `mem[0..N-1]` (10_state.md R15). -/
  mem : Memory
  /-- The cursor (10_state.md R17). -/
  pos : Offset
  /-- `rec.count`, `rec.x`, `rec.y`, `rec.z` (10_state.md R19). -/
  record : Record
  /-- Flag: the most recent scan found a match (10_state.md R20). -/
  found : Bool
  /-- The offset of that match, 0 if none (10_state.md R20). -/
  foff : Offset
  /-- The byte the most recent PEEK read (10_state.md R21). -/
  rdata : Byte
  /-- Flag: an illegal command was accepted since reset, sticky (10_state.md R22). -/
  ill : Bool
  /-- The cause code of the first illegal command since reset (10_state.md R22). -/
  illc : BitVec 3
  /-- The sequencer's phase (10_state.md R25). -/
  phase : Phase
  /-- The cadence timer (10_state.md R26). -/
  timer : CadenceTimer
  /-- INPUT, the model's own field: what the host does at the command port from now on, first event first. Log entry 4. -/
  host : List HostEvent
  /-- INPUT, the model's own field: what happens at `rst` and `mode` from now on, first event first; past the list they
  stay as they are, with `rst = 0`. Log entry 4. -/
  pins : List PinEvent
  /-- INPUT, the model's own field: the Source's answers to the next reads, as far as they are given
  (43_framing_fsm.md R80); a read past them draws `Config.freeAnswer`. Log entry 3. -/
  source : List SourceAnswer
  /-- OUTPUT, the model's own field: the records published so far, first one first (43_framing_fsm.md R93).
  Log entry 10. -/
  pub : List Record
  /-- The model's own field: how many free values have been drawn. Log entry 15. -/
  draws : Nat
deriving DecidableEq, Repr

/-- Why a step stops the machine. No condition in the block's operation is a fault (60_exceptions.md R94). -/
inductive Fault where
  /-- Raised by `step` alone, in a state whose phase is not IDLE: a state inside an operation, where the command port
  holds (70_reset_and_hazards.md R113) and whose remaining work the atomic model does not represent. No run reaches such
  a state. Log entry 8, safe: the model stops where the hardware goes on. -/
  | midOperation
deriving DecidableEq, Repr

/-- Why the model gives an instruction no meaning. -/
inductive Refusal where
  /-- Raised by `exec` for an instruction without a meaning, by its mnemonic. No arm raises it. Safe. -/
  | notModelled (mnemonic : String)
deriving DecidableEq, Repr

/-- The all-zero record, the reset value of the record registers (10_state.md R19). -/
def Record.zero : Record := { count := 0, x := 0, y := 0, z := 0 }

/-- The machine right after reset, every field at the value of 70_reset_and_hazards.md R108; this hardware, its strap at
CMD (log entry 1), nothing at the ports and nothing published. -/
def State.reset : State where
  cfg := Config.hardware .cmd
  strap := .cmd
  mem := []
  pos := 0
  record := Record.zero
  found := false
  foff := 0
  rdata := 0
  ill := false
  illc := 0
  phase := .idle
  timer := .expired
  host := []
  pins := []
  source := []
  pub := []
  draws := 0

end Sys2Proof.Machine
end

