-- ==== Sys2Proof/Machine/Ops.lean ====
section
/-! DEFINITION. The named operations over the ring, the registers and the ports, among them the two that every family
uses: raising an illegal command (the block's only exception) and reset. Only these write State. -/

namespace Sys2Proof.Machine

/-! ### The ring as a canonical list -/

namespace Memory

/-- What an offset that is not listed reads as: 0x00, the reset contents of the ring (10_state.md R15, ZERO).
Log entry 9. -/
def unlisted : Byte := 0x00

/-- The byte at an offset. -/
def read : Memory → Nat → Byte
  | [], _ => unlisted
  | (k, b) :: m, a => if a = k then b else if a < k then unlisted else read m a

/-- Write one byte and keep the canonical form: writing what an unlisted offset reads as removes the entry. -/
def write : Memory → Nat → Byte → Memory
  | [], a, b => if b = unlisted then [] else [(a, b)]
  | (k, c) :: m, a, b =>
    if a < k then (if b = unlisted then (k, c) :: m else (a, b) :: (k, c) :: m)
    else if a = k then (if b = unlisted then m else (a, b) :: m)
    else (k, c) :: write m a b

/-- The canonical form: offsets strictly rising, no entry equal to what an unlisted offset reads as. -/
abbrev wf (m : Memory) : Prop :=
  m.Pairwise (fun x y => x.1 < y.1) ∧ ∀ c ∈ m, c.2 ≠ unlisted

/-- The ring after a reset: every byte 0x00 under ZERO, every byte a free draw under ARBITRARY
(10_state.md R15; 93_implementation_defined.md I1). -/
def resetRing (c : Config) (draw : Nat) : Memory :=
  match c.fill with
  | .zero => []
  | .arbitrary =>
    ((List.range c.n).map (fun i => (i, Config.resetByte draw i))).filter (fun x => x.2 ≠ unlisted)

end Memory

/-! ### Updates of single fields -/

namespace State

/-- `MemWrite(o, 1, b)`: `mem[o mod N] <- b` (00_scope.md section 5). -/
def writeByte (s : State) (o : Nat) (b : Byte) : State := { s with mem := s.mem.write (o % s.cfg.n) b }

/-- `pos <- p mod N` (00_scope.md R12). -/
def setPos (s : State) (p : Nat) : State := { s with pos := BitVec.ofNat 12 (p % s.cfg.n) }

/-- Replace the four record registers at once (10_state.md R19). -/
def setRecord (s : State) (r : Record) : State := { s with record := r }

/-- Write the register `rdata` (10_state.md R21). -/
def setRdata (s : State) (b : Byte) : State := { s with rdata := b }

/-- `phase <- P` (43_framing_fsm.md R89). -/
def setPhase (s : State) (p : Phase) : State := { s with phase := p }

/-- Write the cadence timer (10_state.md R26). -/
def setTimer (s : State) (t : CadenceTimer) : State := { s with timer := t }

/-- `publish(r)`: one event on the Sink port (43_framing_fsm.md R82). -/
def publish (s : State) (r : Record) : State := { s with pub := s.pub ++ [r] }

/-- What the host does at the command port from now on. -/
def setHost (s : State) (h : List HostEvent) : State := { s with host := h }

/-- What happens at the pins `rst` and `mode` from now on. -/
def setPins (s : State) (p : List PinEvent) : State := { s with pins := p }

/-- The value at the `mode` pin. -/
def setStrap (s : State) (m : Mode) : State := { s with strap := m }

/-- The answers of the Source that are given. -/
def setSource (s : State) (a : List SourceAnswer) : State := { s with source := a }

/-- Advance the counter of free values by one. -/
def draw (s : State) : State := { s with draws := s.draws + 1 }

/-! ### The one exception -/

/-- An illegal command of cause `c` (10_state.md R22, 60_exceptions.md R97): `illc` keeps the first cause, `ill` is
set, and nothing else changes. There is no return from it: the block has no trap, and only reset clears `ill` and `illc`
(60_exceptions.md R101). -/
def raiseIllegal (s : State) (c : IllegalCause) : State :=
  { s with illc := if s.ill then s.illc else c.code, ill := true }

/-- Run a command: its effect, or the illegal-command exception where the command is illegal for the machine's capacity
or mode; then no part of the effect happens (60_exceptions.md R97). Log entry 11. -/
def runLegal (s : State) (i : Instr) (effect : State → State) : State :=
  match i.illegalIn s.cfg.n s.cfg.mode with
  | some c => s.raiseIllegal c
  | none => effect s

/-! ### The accumulator's reads and writes -/

/-- `mem[o mod N]` (20_memory.md R30). -/
def byteAt (s : State) (o : Nat) : Byte := s.mem.read (o % s.cfg.n)

/-- `readWindow(o, k)`: `k` bytes from offset `o`, wrapping modulo N (40_accumulator.md R56). -/
def readWindow (s : State) (o k : Nat) : List Byte := (List.range k).map (fun i => s.byteAt (o + i))

/-- One turn of the append loop: `mem[pos] <- b; pos <- (pos + 1) mod N` (40_accumulator.md R57). -/
def appendByte (s : State) (b : Byte) : State := (s.writeByte s.pos.toNat b).setPos (s.pos.toNat + 1)

/-- `append(bs)`: the bytes one at a time, in list order (40_accumulator.md R57). -/
def appendBytes (s : State) (bs : List Byte) : State := bs.foldl appendByte s

/-! ### The Source port -/

/-- The batch that the next read of the Source delivers, at most MAX_BATCH bytes; ERROR delivers none
(43_framing_fsm.md R80). -/
def batch (s : State) : List Byte :=
  match s.source with
  | .bytes bs :: _ => bs.take s.cfg.maxBatch
  | .error :: _ => []
  | [] =>
    match Config.freeAnswer s.draws with
    | .bytes bs => bs.take s.cfg.maxBatch
    | .error => []

/-- The Source after that read: the answer is used up, and bytes beyond MAX_BATCH wait for the next read
(43_framing_fsm.md R81; 70_reset_and_hazards.md, data hazards). -/
def afterRead (s : State) : State :=
  match s.source with
  | .bytes bs :: rest =>
    s.setSource (if bs.length ≤ s.cfg.maxBatch then rest else .bytes (bs.drop s.cfg.maxBatch) :: rest)
  | .error :: rest => s.setSource rest
  | [] => s.draw

/-! ### The command port, reset and time -/

/-- Offer a command program: its words after everything the host offers before (43_framing_fsm.md R93). -/
def offer (s : State) (ws : List Word) : State := s.setHost (s.host ++ ws.map .command)

/-- One rising edge with `rst = 1`, and the ring clear that follows it (70_reset_and_hazards.md R108 to R110): every state
item at its reset value, MODE sampled from the strap. The pins, the Source and the records already published lie outside
the block and stay. -/
def resetState (s : State) : State :=
  { cfg := { s.cfg with mode := s.strap }
    strap := s.strap
    mem := Memory.resetRing s.cfg s.draws
    pos := 0
    record := Record.zero
    found := false
    foff := 0
    rdata := 0
    ill := false
    illc := 0
    phase := .idle
    timer := .expired
    host := s.host
    pins := s.pins
    source := s.source
    pub := s.pub
    draws := s.draws + 1 }

end State

namespace CadenceTimer

/-- The timer with a number of ticks since the current cycle began: expired once the period is over
(43_framing_fsm.md R87). -/
def atTicks (t : Nat) : CadenceTimer := if Config.cadenceTicks ≤ t then .expired else .running t

/-- The timer after a number of ticks more; an expired timer stays so. -/
def advance : CadenceTimer → Nat → CadenceTimer
  | .expired, _ => .expired
  | .running t, k => atTicks (t + k)

end CadenceTimer

/-- `wait(e)` of 43_framing_fsm.md R87 for a period and an elapsed time in one unit. -/
def cadenceWait (period e : Nat) : Nat := if e < period then period - e else 0

/-- Whether `rst` is 1 at the first rising edge of a list of events at the pins. -/
def rstAtNextEdge : List PinEvent → Bool
  | .reset :: _ => true
  | .strap _ :: rest => rstAtNextEdge rest
  | .steady :: _ => false
  | [] => false

namespace State

/-- In AUTO, `k` clock ticks go by for the cadence timer; in CMD the timer is unused (10_state.md R26). -/
def elapse (s : State) (k : Nat) : State :=
  match s.cfg.mode with
  | .auto => s.setTimer (s.timer.advance k)
  | .cmd => s

/-- The time a command takes, LATENCY ticks, goes by; it matters to the cadence of AUTO alone
(70_reset_and_hazards.md R116). -/
def passLatency (s : State) : State :=
  match s.cfg.mode with
  | .auto => (s.elapse (Config.latency s.draws)).draw
  | .cmd => s

/-- Nothing is offered: in AUTO the cadence wait runs to its end, in CMD the block idles (60_exceptions.md R107). -/
def idleOut (s : State) : State :=
  match s.cfg.mode with
  | .auto => s.setTimer .expired
  | .cmd => s

/-! ### When the command port is ready -/

/-- In AUTO with the cadence timer expired, the next cycle is due (43_framing_fsm.md R86, R87). -/
def cycleDue (s : State) : Bool := decide (s.cfg.mode = .auto) && decide (s.timer = .expired)

/-- The pin `rst`, as the next rising edge has it: a change of the strap takes no rising edge, so `rst` is held at 1 also
where such changes come before the reset (70_reset_and_hazards.md R108; log entry 4). -/
def rst (s : State) : Bool := rstAtNextEdge s.pins

/-- Neither a reset nor a change of the strap comes before the next operation. -/
def pinsQuiet (s : State) : Bool :=
  match s.pins with
  | .reset :: _ => false
  | .strap _ :: _ => false
  | .steady :: _ => true
  | [] => true

/-- One operation starts: the pins' own time goes on by one. -/
def pastPins (s : State) : State := s.setPins s.pins.tail

/-- The output `cmd_ready` (30_encoding.md R46): `rst = 0` and no operation in progress. DEDUCED, safe (log entry 16): it is
also 0 where an AUTO cycle is due and has not begun (right after reset, at the end of the wait, after an overrun), since an
offered word does not transfer at that edge (60_exceptions.md R100) and R46 has a transfer whenever valid and ready are 1. -/
def cmdReady (s : State) : Bool := !s.rst && decide (s.phase = .idle) && !s.cycleDue

end State

end Sys2Proof.Machine
end

