-- ==== Sys2Proof/Machine/Operands.lean ====
section
/-! DEFINITION. Operand forms and the arithmetic on them: offsets as naturals modulo N (00_scope.md R12), big-endian
fields (30_encoding.md R44), the frame layout (R43), the record word (R47), and the status outputs (R46). -/

namespace Sys2Proof.Machine

/-- `be32`: four bytes, the first the most significant (30_encoding.md R44). -/
def be32 (b0 b1 b2 b3 : Byte) : Word :=
  (b0.setWidth 32 <<< 24) ||| (b1.setWidth 32 <<< 16) ||| (b2.setWidth 32 <<< 8) ||| b3.setWidth 32

/-- `be_bytes`: the four bytes of a 32-bit value, the most significant first (42_decoder.md R74). -/
def beBytes (v : Word) : List Byte :=
  [v.extractLsb' 24 8, v.extractLsb' 16 8, v.extractLsb' 8 8, v.extractLsb' 0 8]

/-- The big-endian field of a window at a position (30_encoding.md R44; 20_memory.md R31). A window of 20 bytes has every
byte the four fields take. -/
def fieldAt (w : List Byte) (i : Nat) : Word :=
  be32 (w.getD i 0) (w.getD (i + 1) 0) (w.getD (i + 2) 0) (w.getD (i + 3) 0)

namespace Record

/-- The 20 bytes of a frame that carries a record (30_encoding.md R43; `FRM` of 95_test_vectors.md). -/
def frameBytes (r : Record) : List Byte :=
  Config.sig ++ beBytes r.count ++ beBytes r.x ++ beBytes r.y ++ beBytes r.z

/-- The record as one 128-bit word, as it travels on `pub_record` and `o_rec`: `count` in bits 127:96, `x` in 95:64, `y` in
63:32, `z` in 31:0 (30_encoding.md R47). -/
def toWord (r : Record) : BitVec 128 :=
  (r.count.setWidth 128 <<< 96) ||| (r.x.setWidth 128 <<< 64) ||| (r.y.setWidth 128 <<< 32) ||| r.z.setWidth 128

end Record

/-- The scan index of an offset for a scan that starts at `p`: `(o - p) mod N` (41_detector.md R65). -/
def scanIndex (n p o : Nat) : Nat := (o + n - p % n) % n

/-- The code of a phase (10_state.md R25). -/
def Phase.code : Phase → BitVec 2
  | .idle => 0
  | .ingest => 1
  | .scan => 2
  | .publish => 3

/-- The block's read-only outputs (30_encoding.md R46), but for the publish pulse, which `State.pub` records. -/
structure StatusOutputs where
  cmdReady : Bool
  rdata : BitVec 8
  pos : BitVec 12
  found : BitVec 1
  foff : BitVec 12
  record : BitVec 128
  ill : BitVec 1
  illc : BitVec 3
  phase : BitVec 2
deriving DecidableEq, Repr

/-- The outputs as sampled. Where `cmd_ready` is 1 each shows its register (10_state.md R24); a status output's value is
defined only there, and elsewhere, inside an operation or where one is due, it may be any value (70_reset_and_hazards.md
R114; log entries 7 and 16). -/
def State.outputs (s : State) : StatusOutputs :=
  match s.cmdReady with
  | true =>
    { cmdReady := true, rdata := s.rdata, pos := s.pos, found := BitVec.ofBool s.found, foff := s.foff,
      record := s.record.toWord, ill := BitVec.ofBool s.ill, illc := s.illc, phase := s.phase.code }
  | false =>
    { cmdReady := false, rdata := Config.busySample 8 0 s.draws, pos := Config.busySample 12 1 s.draws,
      found := Config.busySample 1 2 s.draws, foff := Config.busySample 12 3 s.draws,
      record := Config.busySample 128 4 s.draws, ill := Config.busySample 1 5 s.draws,
      illc := Config.busySample 3 6 s.draws, phase := Config.busySample 2 7 s.draws }

end Sys2Proof.Machine
end

