-- ==== Sys2Proof/Machine/Flags.lean ====
section
/-! DEFINITION. The flags of the block: `found` with its offset `foff` (10_state.md R20). The other flag, `ill` with its
cause `illc`, is written by `State.raiseIllegal` alone. There are no condition codes (10_state.md R23). -/

namespace Sys2Proof.Machine.State

/-- The result of a scan in the registers `found` and `foff`: 1 and the offset, or 0 and 0 (10_state.md R20). -/
def setScan (s : State) (r : Option Nat) : State :=
  match r with
  | some o => { s with found := true, foff := BitVec.ofNat 12 o }
  | none => { s with found := false, foff := 0 }

end Sys2Proof.Machine.State
end

