-- ==== Sys2Proof/Machine/Accumulator.lean ====
section
/-! DEFINITION. The accumulator's commands APPEND and PEEK (40_accumulator.md section 2). -/

namespace Sys2Proof.Machine

/-- APPEND: `append([b])` (40_accumulator.md R61). -/
def execAppend (b : Byte) (s : State) : Host.Outcome State Fault Refusal :=
  .next (s.runLegal (.append b) (fun s => s.appendBytes [b]))

/-- PEEK: `rdata <- readWindow(o, 1)[0]` (40_accumulator.md R62). -/
def execPeek (o : Offset) (s : State) : Host.Outcome State Fault Refusal :=
  .next (s.runLegal (.peek o) (fun s => s.setRdata ((s.readWindow o.toNat 1).getD 0 0)))

end Sys2Proof.Machine
end

