-- ==== Sys2Proof/Machine/Detector.lean ====
section
/-! DEFINITION. The signature detector: the four-lane comparator, the bounded scan, and the command FIND
(41_detector.md). -/

namespace Sys2Proof.Machine

namespace State

/-- `sigMatch(o)`: four byte-equality lanes, ANDed (41_detector.md R63). -/
def sigMatch (s : State) (o : Nat) : Bool :=
  ((s.readWindow o Config.sig.length).zip Config.sig).all (fun lane => lane.1 == lane.2)

/-- The SCAN_COUNT start offsets of a scan from `p`, in scan order (41_detector.md R64). -/
def scanOffsets (c : Config) (p : Nat) : List Nat := (List.range c.scanCount).map (fun j => (p + j) % c.n)

/-- `findStart(p)`: the first start offset that matches (41_detector.md R64). -/
def findStart (s : State) (p : Nat) : Option Nat := (scanOffsets s.cfg p).find? s.sigMatch

/-- The scan of FIND: from the cursor, reported and not consumed (41_detector.md R70; the phase as in
43_framing_fsm.md R89). -/
def scanReport (s : State) : State :=
  let s := s.setPhase .scan
  (s.setScan (s.findStart s.pos.toNat)).setPhase .idle

end State

/-- FIND (41_detector.md R70). -/
def execFind (s : State) : Host.Outcome State Fault Refusal :=
  .next (s.runLegal .find State.scanReport)

end Sys2Proof.Machine
end

