-- ==== Sys2Proof/Machine/Decoder.lean ====
section
/-! DEFINITION. The packet decoder: the field unpacker and the command DECODE (42_decoder.md). -/

namespace Sys2Proof.Machine

/-- `decodeFrame(fs)`: the four big-endian fields of the 20-byte window; bytes 0 to 3 are not looked at
(42_decoder.md R71, R72). -/
def State.decodeFrame (s : State) (fs : Nat) : Record :=
  let w := s.readWindow fs Config.frameLen
  { count := fieldAt w 4, x := fieldAt w 8, y := fieldAt w 12, z := fieldAt w 16 }

/-- DECODE: the window at an offset into the record registers; nothing is published (42_decoder.md R76). -/
def execDecode (o : Offset) (s : State) : Host.Outcome State Fault Refusal :=
  .next (s.runLegal (.decode o) (fun s => s.setRecord (s.decodeFrame o.toNat)))

end Sys2Proof.Machine
end

