-- ==== Sys2Proof/Machine/Framing.lean ====
section
/-! DEFINITION. The framing state machine: the commands NOP, FRAME and CYCLE, and the cycle the block runs on its own in
AUTO (43_framing_fsm.md). -/

namespace Sys2Proof.Machine

namespace State

/-- A match at `fs`: report it, decode, publish and advance the cursor, in this order; phases SCAN to PUBLISH to IDLE
(43_framing_fsm.md R78, R82, R83, R89). -/
def consumeMatch (s : State) (fs : Nat) : State :=
  let s := (s.setScan (some fs)).setPhase .publish
  let r := s.decodeFrame fs
  (((s.setRecord r).publish r).setPos (fs + Config.frameLen)).setPhase .idle

/-- No match: report it; the cursor, the record and the published sequence stay (43_framing_fsm.md R85). -/
def reportNoMatch (s : State) : State := (s.setScan none).setPhase .idle

/-- Steps 2 to 4 of a cycle: one scan from the cursor, and what follows (43_framing_fsm.md R78). -/
def frameOnce (s : State) : State :=
  let s := s.setPhase .scan
  match s.findStart s.pos.toNat with
  | some fs => s.consumeMatch fs
  | none => s.reportNoMatch

/-- Step 1 of a cycle: one read of the Source, appended (43_framing_fsm.md R79 to R81; phases INGEST to SCAN, R89). -/
def ingest (s : State) : State :=
  let s := s.setPhase .ingest
  (s.afterRead.appendBytes s.batch).setPhase .scan

/-- One whole cycle, steps 1 to 4 (43_framing_fsm.md R79). -/
def cycleOnce (s : State) : State := s.ingest.frameOnce

/-- A cycle that the block starts on its own in AUTO, with the cadence timer at the cycle's elapsed time when it ends
(43_framing_fsm.md R86 to R88). It cannot be illegal (R79). -/
def autoCycle (s : State) : State :=
  let s := s.cycleOnce
  (s.setTimer (CadenceTimer.atTicks (Config.latency s.draws))).draw

end State

/-- NOP: no state changes (43_framing_fsm.md R77). -/
def execNop (s : State) : Host.Outcome State Fault Refusal :=
  .next (s.runLegal .nop (fun s => s))

/-- FRAME (43_framing_fsm.md R78). -/
def execFrame (s : State) : Host.Outcome State Fault Refusal :=
  .next (s.runLegal .frame State.frameOnce)

/-- CYCLE as a command (43_framing_fsm.md R79). -/
def execCycle (s : State) : Host.Outcome State Fault Refusal :=
  .next (s.runLegal .cycle State.cycleOnce)

end Sys2Proof.Machine
end

