-- ==== Sys2Proof/Machine/Dispatch.lean ====
section
/-! DEFINITION. Every command to its meaning, one arm per constructor of Instr. -/

namespace Sys2Proof.Machine

def exec (i : Instr) (s : State) : Host.Outcome State Fault Refusal :=
  match i with
  | .nop => Sys2Proof.Machine.execNop s
  | .append b => Sys2Proof.Machine.execAppend b s
  | .peek o => Sys2Proof.Machine.execPeek o s
  | .find => Sys2Proof.Machine.execFind s
  | .decode o => Sys2Proof.Machine.execDecode o s
  | .frame => Sys2Proof.Machine.execFrame s
  | .cycle => Sys2Proof.Machine.execCycle s

end Sys2Proof.Machine
end

