-- ==== Sys2Proof/Machine/Port.lean ====
section
/-! DEFINITION. What the block does next, between two operations: accept a command from the command port, start an AUTO
cycle, wait, or reset (60_exceptions.md R100; 30_encoding.md R51). Step.lean only calls this. -/

namespace Sys2Proof.Machine

/-- The command port accepts a word (30_encoding.md R51): an illegal one raises its cause, a legal one runs. -/
def acceptCommand (w : Word) (s : State) : Host.Outcome State Fault Refusal :=
  match decodeCmd s.cfg.n s.cfg.mode w with
  | .error c => .next (s.raiseIllegal c)
  | .ok i => exec i s

/-- The time of the command goes by after it. -/
def withLatency : Host.Outcome State Fault Refusal → Host.Outcome State Fault Refusal
  | .next s => .next s.passLatency
  | .fault f => .fault f
  | .refused r => .refused r

/-- Nothing but reset happens inside an operation (70_reset_and_hazards.md R113); between two operations an AUTO cycle
that is due beats what the host offers, which waits for it (60_exceptions.md R100).

DESIGN CHOICE, unsafe (log entry 17): after a cycle that overruns the period (`wait(e) = 0`) the next cycle is due at once
(43_framing_fsm.md R87), and the model starts it before it takes what the host offers, as at the end of any other wait. The
spec leaves open whether a waiting command gets its turn between two such cycles (R100 item 2: it "transfers after the
cycle"). So while cycles overrun, a held command or an idle time, and what stands behind it at the command port, waits. That
is a choice about the command port alone: a reset or a change of the strap waits for nothing (`nextOperation`). -/
def unlessBusy (s : State) (otherwise : Host.Outcome State Fault Refusal) : Host.Outcome State Fault Refusal :=
  if s.phase = .idle then (if s.cycleDue then .next s.autoCycle else otherwise) else .fault .midOperation

/-- The next operation of the block, where the pins are quiet: a cycle that is due, or what the host does at the command
port. -/
def operate (s : State) : Host.Outcome State Fault Refusal :=
  match s.host with
  | .command w :: rest => unlessBusy s (withLatency (acceptCommand w (s.setHost rest)))
  | .idle k :: rest => unlessBusy s (.next ((s.setHost rest).elapse k))
  | [] => unlessBusy s (.next s.idleOut)

/-- The next thing that happens. The pins come first: reset beats everything, from any phase, and whatever is due or held
at the command port (60_exceptions.md R100, 43_framing_fsm.md R89); the `mode` pin moves whatever the block does. -/
def nextOperation (s : State) : Host.Outcome State Fault Refusal :=
  match s.pins with
  | .reset :: rest => .next (s.setPins rest).resetState
  | .strap m :: rest => .next ((s.setPins rest).setStrap m)
  | .steady :: rest => operate (s.setPins rest)
  | [] => operate s

/-- A word offered so that the very next step takes it (log entry 4): it stands first at the command port; the pins are
quiet for one operation; the block is between two operations; and in AUTO it is inside the cadence wait, where a command can
be taken (60_exceptions.md R100). -/
def State.offerNext (s : State) (w : Word) : State :=
  { s with
    host := .command w :: s.host
    pins := .steady :: s.pins
    phase := .idle
    timer := match s.cfg.mode with
      | .auto => .running 0
      | .cmd => s.timer }

end Sys2Proof.Machine
end

