-- ==== Sys2Proof/Machine/Step.lean ====
section
/-! DEFINITION. One step of the block, and where it takes its next command from. -/

namespace Sys2Proof.Machine

/-- One step: one whole operation of the block's one agent (00_scope.md R2, 20_memory.md R36). -/
def step (s : State) : Host.Outcome State Fault Refusal := nextOperation s

/-- The block fetches nothing (20_memory.md R41): its next command is the word offered at the command port. -/
def State.withFetchWord (s : State) (nbits w : Nat) : State := s.offerNext (tableWord nbits w)

end Sys2Proof.Machine
end

