-- ==== Sys2Proof/Machine/Assembler.lean ====
section
/-! DEFINITION. The assembler for command programs (30_encoding.md R53, R54): its lines as data, the words each line
expands to, and the reading of a program's text. It is the host's tool; the block sees only the words. Log entry 12. -/

namespace Sys2Proof.Machine.Assembler

/-- One line of a command program (30_encoding.md R53), or a pseudo-instruction (R54). Operands are the numbers as
written; the assembler checks their range. -/
inductive Line where
  | nop
  | append (b : Nat)
  | peek (o : Nat)
  | find
  | decode (o : Nat)
  | frame
  | cycle
  | appends (bs : List Nat)
  | fill (count b : Nat)
  | pushFrame (c x y z : Nat)
deriving DecidableEq, Repr

/-- An operand below a bound; a larger one is refused, not truncated (30_encoding.md R53). -/
def below (bound v : Nat) : Option Nat := if v < bound then some v else none

/-- `APPEND b`, for `0 <= b <= 255`. -/
def appendCmd (b : Nat) : Option Instr := (below 256 b).map (fun v => .append (BitVec.ofNat 8 v))

/-- A 32-bit operand of PUSHFRAME. -/
def word32 (v : Nat) : Option Word := (below (2 ^ 32) v).map (BitVec.ofNat 32)

/-- The commands a line expands to, for capacity `n` (30_encoding.md R53, R54); none where an operand is out of range. -/
def expand (n : Nat) : Line → Option (List Instr)
  | .nop => some [.nop]
  | .append b => (appendCmd b).map (fun i => [i])
  | .peek o => (below n o).map (fun v => [.peek (BitVec.ofNat 12 v)])
  | .find => some [.find]
  | .decode o => (below n o).map (fun v => [.decode (BitVec.ofNat 12 v)])
  | .frame => some [.frame]
  | .cycle => some [.cycle]
  | .appends bs => bs.mapM appendCmd
  | .fill count b => (appendCmd b).map (List.replicate count)
  | .pushFrame c x y z => do
    let c ← word32 c
    let x ← word32 x
    let y ← word32 y
    let z ← word32 z
    return (Record.frameBytes { count := c, x := x, y := y, z := z }).map Instr.append

/-- The words of a program, in order; none where a line is refused. -/
def assemble (n : Nat) (p : List Line) : Option (List Word) :=
  (p.mapM (expand n)).map (fun cmds => cmds.flatten.map encode)

/-! ### The text of a program -/

/-- A blank between the parts of a line. -/
def isBlank (c : Char) : Bool := c == ' ' || c == '\t' || c == '\r'

/-- A digit in a base up to 16. -/
def digitOf (base : Nat) (c : Char) : Option Nat :=
  let v := c.toNat
  if 48 ≤ v ∧ v ≤ 57 ∧ v - 48 < base then some (v - 48)
  else if base = 16 ∧ 97 ≤ v ∧ v ≤ 102 then some (v - 87)
  else if base = 16 ∧ 65 ≤ v ∧ v ≤ 70 then some (v - 55)
  else none

/-- Digits in a base, the first the most significant, after a value already read. -/
def digitsFrom (base acc : Nat) : List Char → Option Nat
  | [] => some acc
  | c :: cs =>
    match digitOf base c with
    | some d => digitsFrom base (acc * base + d) cs
    | none => none

/-- A number in decimal or as `0x` hexadecimal (30_encoding.md R53). -/
def number : List Char → Option Nat
  | [] => none
  | '0' :: 'x' :: c :: cs => digitsFrom 16 0 (c :: cs)
  | c :: cs => digitsFrom 10 0 (c :: cs)

/-- Cut a text at every occurrence of a separator. -/
def splitAtChar (sep : Char) : List Char → List (List Char)
  | [] => [[]]
  | c :: cs =>
    if c = sep then [] :: splitAtChar sep cs
    else
      match splitAtChar sep cs with
      | [] => [[c]]
      | part :: parts => (c :: part) :: parts

/-- A text without the blanks at both its ends. -/
def trim (cs : List Char) : List Char := ((cs.dropWhile isBlank).reverse.dropWhile isBlank).reverse

/-- The comma-separated operands of a line; an empty text holds none. -/
def operands (cs : List Char) : Option (List Nat) :=
  match trim cs with
  | [] => some []
  | c :: rest => (splitAtChar ',' (c :: rest)).mapM (fun part => number (trim part))

/-- A line from its mnemonic and operands (30_encoding.md R53, R54); none for any other spelling. -/
def lineOf (mnemonic : List Char) (args : List Nat) : Option Line :=
  match mnemonic, args with
  | ['N', 'O', 'P'], [] => some .nop
  | ['A', 'P', 'P', 'E', 'N', 'D'], [b] => some (.append b)
  | ['P', 'E', 'E', 'K'], [o] => some (.peek o)
  | ['F', 'I', 'N', 'D'], [] => some .find
  | ['D', 'E', 'C', 'O', 'D', 'E'], [o] => some (.decode o)
  | ['F', 'R', 'A', 'M', 'E'], [] => some .frame
  | ['C', 'Y', 'C', 'L', 'E'], [] => some .cycle
  | ['A', 'P', 'P', 'E', 'N', 'D', 'S'], b :: bs => some (.appends (b :: bs))
  | ['F', 'I', 'L', 'L'], [k, b] => some (.fill k b)
  | ['P', 'U', 'S', 'H', 'F', 'R', 'A', 'M', 'E'], [c, x, y, z] => some (.pushFrame c x y z)
  | _, _ => none

/-- One line of text, its comment cut off at `;`: no line where nothing is left, `none` where it is not a line of the
syntax. -/
def parseLine (cs : List Char) : Option (List Line) :=
  match trim (cs.takeWhile (fun c => c != ';')) with
  | [] => some []
  | c :: rest => do
    let text := c :: rest
    let args ← operands (text.dropWhile (fun c => !isBlank c))
    let line ← lineOf (text.takeWhile (fun c => !isBlank c)) args
    return [line]

/-- A program's text, one command a line (30_encoding.md R53). -/
def parse (cs : List Char) : Option (List Line) :=
  ((splitAtChar '\n' cs).mapM parseLine).map List.flatten

/-- From a program's text to its words, for capacity `n`. -/
def assembleText (n : Nat) (cs : List Char) : Option (List Word) := (parse cs).bind (assemble n)

end Sys2Proof.Machine.Assembler
end

