-- ==== Sys2Proof/Safety.lean ====
section
/-! DEFINITION. What claims about runs are stated in: the invariant of the machine's state, and when a command program's
run is over. -/

namespace Sys2Proof.Machine

/-- `k` steps of the machine, stopping at the first fault or refusal. -/
def run : Nat → State → Host.Outcome State Fault Refusal
  | 0, s => .next s
  | k + 1, s =>
    match step s with
    | .next t => run k t
    | .fault f => .fault f
    | .refused r => .refused r

namespace State

/-- What holds between any two operations. Claims that could fail only in states no run reaches take it as a premise. -/
structure Inv (s : State) : Prop where
  /-- `4 <= N <= 4096` (00_scope.md R3). -/
  cfg_wf : s.cfg.wf
  /-- The ring is in canonical form. -/
  mem_wf : s.mem.wf
  /-- Only offsets `0 .. N-1` exist (20_memory.md R28). -/
  mem_lt : ∀ c ∈ s.mem, c.1 < s.cfg.n
  /-- "`0 ≤ pos < N` at all times" (10_state.md R17). -/
  pos_lt : s.pos.toNat < s.cfg.n
  /-- `foff` is the offset of a match (10_state.md R20). -/
  foff_lt : s.foff.toNat < s.cfg.n
  /-- A scan that finds none sets `found <- 0, foff <- 0` (10_state.md R20). -/
  foff_none : s.found = false → s.foff = 0
  /-- `illc = 0` means no cause (10_state.md R22). -/
  illc_none : s.ill = false ↔ s.illc = 0
  /-- Causes 5 to 7 are never raised (60_exceptions.md R96). -/
  illc_le : s.illc.toNat ≤ 4
  /-- "Between two operations of the model `phase` is always `IDLE`" (10_state.md R25). -/
  phase_idle : s.phase = .idle
  /-- A timer that runs has not reached the period (43_framing_fsm.md R87). -/
  timer_lt : ∀ t, s.timer = .running t → t < Config.cadenceTicks
  /-- In CMD the timer is unused and stays as reset leaves it (10_state.md R26). -/
  timer_cmd : s.cfg.mode = .cmd → s.timer = .expired

/-- The run of a command program is over (43_framing_fsm.md R93): CMD mode, every command taken and completed. -/
def programDone (s : State) : Prop := s.cfg.mode = .cmd ∧ s.host = [] ∧ s.phase = .idle

/-- The legal command `i` stands first at the command port. -/
def offers (s : State) (i : Instr) : Prop :=
  ∃ w rest, s.host = .command w :: rest ∧ decodeCmd s.cfg.n s.cfg.mode w = .ok i

/-- The next step is a cycle that the block starts on its own (43_framing_fsm.md R86): one is due between two operations,
and neither a reset nor a change of the strap comes first. -/
def startsCycle (s : State) : Prop :=
  s.phase = .idle ∧ s.cycleDue = true ∧ s.pinsQuiet = true

/-- No event of the host that resets the block is still to come. -/
def noResetAhead (s : State) : Prop := PinEvent.reset ∉ s.pins

end State

end Sys2Proof.Machine
end

