-- ==== Sys2Proof/Certificates/Slice0/Obligations.lean ====
section
/-! DEFINITION. The statements for the provers. Each docstring names the rule of the spec it formalises; a premise
`s.Inv` rules out only states that no run reaches (`EveryStepKeepsTheInvariant`, `ResetSatisfiesTheInvariant`). -/

open Sys2Proof Sys2Proof.Machine

/-! ### Reset and mode -/

/-- 70_reset_and_hazards.md section 1: the state after reset, each item at the value of its row in the table. The strap at
CMD is the model's choice (log entry 1) and is not claimed. -/
def Obligations.ResetHoldsTheTableValues : Prop :=
  (∀ o, State.reset.byteAt o = 0x00) ∧ State.reset.pos = 0 ∧ State.reset.record = ⟨0, 0, 0, 0⟩ ∧
    State.reset.found = false ∧ State.reset.foff = 0 ∧ State.reset.rdata = 0x00 ∧ State.reset.ill = false ∧
    State.reset.illc = 0 ∧ State.reset.phase = .idle ∧ State.reset.timer = .expired ∧ State.reset.cfg.n = 4096

/-- 70_reset_and_hazards.md section 1: `rst = 1` puts every item at its reset value, from any state and in any phase; a
record already published stays published, and what the host holds at the command port stays offered. Under RING_RESET_FILL =
ZERO every ring byte is 0x00. -/
def Obligations.ResetEventRestoresEveryItem : Prop :=
  ∀ (s : State) (rest : List PinEvent), s.pins = .reset :: rest →
    ∃ t, step s = .next t ∧ (s.cfg.fill = .zero → ∀ o, t.byteAt o = 0x00) ∧
      t = { s with cfg := { s.cfg with mode := s.strap }, mem := t.mem, pos := 0, record := ⟨0, 0, 0, 0⟩, found := false,
                   foff := 0, rdata := 0, ill := false, illc := 0, phase := .idle, timer := .expired, pins := rest,
                   draws := t.draws }

/-- 70_reset_and_hazards.md R110: MODE is sampled from the strap at a reset and kept until the next one; a change of the
strap between resets moves the pin and nothing else. -/
def Obligations.ModeIsSampledOnlyAtReset : Prop :=
  (∀ s t, step s = .next t →
    (∀ rest, s.pins = .reset :: rest → t.cfg.mode = s.strap) ∧
      ((∀ rest, s.pins ≠ .reset :: rest) → t.cfg.mode = s.cfg.mode)) ∧
    ∀ (s : State) (m : Mode) (rest : List PinEvent), s.pins = .strap m :: rest →
      step s = .next { s with pins := rest, strap := m }

/-! ### Encoding -/

/-- 30_encoding.md sections 2 and 3: every command that is legal for a capacity and a mode decodes from its own word, with
every operand. -/
def Obligations.DecodeOfEncodeIsTheCommand : Prop :=
  ∀ (n : Nat) (m : Mode) (i : Instr), i.wf n m = true → decodeCmd n m (encode i) = .ok i

/-- 30_encoding.md sections 2 and 3: a word that decodes is the word of the command it decodes to, and that command is
legal. -/
def Obligations.EncodeOfDecodedWordIsTheWord : Prop :=
  ∀ (n : Nat) (m : Mode) (w : Word) (i : Instr), decodeCmd n m w = .ok i → encode i = w ∧ i.wf n m = true

/-- 30_encoding.md R49: a word selects an instruction when `(word & mask) = match`; no two rows overlap; a selected
instruction has its row's opcode and the operand fields its row names. -/
def Obligations.WordSelectsInstructionByMaskAndMatch : Prop :=
  (∀ w : Word, (∃ i, decodeCmd 4096 .cmd w = .ok i) ↔ ∃ r ∈ opcodeTable, w &&& r.mask = r.pattern) ∧
    (∀ w : Word, ∀ r ∈ opcodeTable, ∀ r' ∈ opcodeTable,
      w &&& r.mask = r.pattern → w &&& r'.mask = r'.pattern → r = r') ∧
    ∀ (w : Word) (i : Instr), decodeCmd 4096 .cmd w = .ok i →
      w &&& i.row.mask = i.row.pattern ∧ fieldOp w = i.opcode ∧
        (∀ b, i = .append b → b = fieldData w) ∧ (∀ o, i = .peek o ∨ i = .decode o → o = fieldOff w)

/-- 30_encoding.md R50: a word of opcodes 0 to 6 that fails its mask is illegal with cause 2, in every mode and for every
capacity. -/
def Obligations.NonzeroUnusedFieldIsCause2 : Prop :=
  ∀ (n : Nat) (m : Mode) (w : Word), (fieldOp w).toNat < 7 → (∀ r ∈ opcodeTable, ¬ r.selects w) →
    decodeCmd n m w = .error .nonzeroUnused

/-- 60_exceptions.md R99 with 30_encoding.md R51: the first failing check, in the order 1, 2, 3, 4, is the one cause; and
the rule's two examples. -/
def Obligations.FirstFailingCheckIsTheCause : Prop :=
  (∀ (n : Nat) (m : Mode) (w : Word),
    (7 ≤ (fieldOp w).toNat → decodeCmd n m w = .error .reservedOp) ∧
      ((fieldOp w).toNat < 7 → (∀ r ∈ opcodeTable, ¬ r.selects w) → decodeCmd n m w = .error .nonzeroUnused) ∧
      ((∃ r ∈ opcodeTable, r.selects w) → (fieldOp w = 2 ∨ fieldOp w = 4) → n ≤ (fieldOff w).toNat →
        decodeCmd n m w = .error .offRange) ∧
      ((∃ r ∈ opcodeTable, r.selects w) → ¬ ((fieldOp w = 2 ∨ fieldOp w = 4) ∧ n ≤ (fieldOff w).toNat) →
        m = .auto → fieldOp w ≠ 0 → fieldOp w ≠ 2 → decodeCmd n m w = .error .modeForbidden) ∧
      ((∃ r ∈ opcodeTable, r.selects w) → ¬ ((fieldOp w = 2 ∨ fieldOp w = 4) ∧ n ≤ (fieldOff w).toNat) →
        (m = .cmd ∨ fieldOp w = 0 ∨ fieldOp w = 2) → ∃ i, decodeCmd n m w = .ok i)) ∧
    decodeCmd 4096 .cmd 0x70000001 = .error .reservedOp ∧ decodeCmd 4096 .auto 0x10000100 = .error .nonzeroUnused

/-- 30_encoding.md section 3: words written out bit by bit from the table decode to the commands they stand for. -/
def Obligations.WrittenOutWordsDecode : Prop :=
  decodeCmd 4096 .cmd 0b00000000000000000000000000000000 = .ok .nop ∧
    decodeCmd 4096 .cmd 0b00010000000000000000000001111111 = .ok (.append 0x7F) ∧
    decodeCmd 4096 .auto 0b00100000000010100000000000000000 = .ok (.peek 10) ∧
    decodeCmd 4096 .cmd 0b00110000000000000000000000000000 = .ok .find ∧
    decodeCmd 4096 .cmd 0b01001111111110100000000000000000 = .ok (.decode 4090) ∧
    decodeCmd 4096 .cmd 0b01010000000000000000000000000000 = .ok .frame ∧
    decodeCmd 4096 .cmd 0b01100000000000000000000000000000 = .ok .cycle

/-- 30_encoding.md R54: the pseudo-instructions expand into APPEND words, with the rule's example. -/
def Obligations.PseudoInstructionsExpandToAppends : Prop :=
  (∀ (n : Nat) (bs : List Byte),
    Assembler.assemble n [.appends (bs.map BitVec.toNat)] = some (bs.map (fun b => encode (.append b)))) ∧
    (∀ (n k : Nat) (b : Byte),
      Assembler.assemble n [.fill k b.toNat] = some (List.replicate k (encode (.append b)))) ∧
    (∀ (n : Nat) (r : Record),
      Assembler.assemble n [.pushFrame r.count.toNat r.x.toNat r.y.toNat r.z.toNat] =
        some (([0x7F, 0xF0, 0x1C, 0xAF] ++ beBytes r.count ++ beBytes r.x ++ beBytes r.y ++ beBytes r.z).map
          (fun b => encode (.append b)))) ∧
    Assembler.assemble 4096 [.pushFrame 42 0x3FC00000 0xC0100000 0] =
      some (([0x7F, 0xF0, 0x1C, 0xAF, 0x00, 0x00, 0x00, 0x2A, 0x3F, 0xC0, 0x00, 0x00, 0xC0, 0x10, 0x00, 0x00, 0x00, 0x00,
        0x00, 0x00] : List Byte).map (fun b => encode (.append b)))

/-- 30_encoding.md section 4: an operand in range gives the word of the table, one out of range is refused, not
truncated. -/
def Obligations.AssemblerRefusesOutOfRangeOperands : Prop :=
  ∀ n v : Nat, n ≤ 4096 →
    Assembler.assemble n [.append v] =
        (if v ≤ 255 then some [0x10000000 ||| BitVec.ofNat 32 v] else none) ∧
      Assembler.assemble n [.peek v] =
        (if v < n then some [0x20000000 ||| (BitVec.ofNat 32 v <<< 16)] else none) ∧
      Assembler.assemble n [.decode v] =
        (if v < n then some [0x40000000 ||| (BitVec.ofNat 32 v <<< 16)] else none)

/-! ### Illegal commands -/

/-- 60_exceptions.md R97: an illegal command is accepted where no reset or strap change comes first, only `ill` and `illc`
change, and the port is ready again afterwards: in CMD at once, unless `rst` is 1; in AUTO, where the cadence timer
runs on (timing only), unless `rst` is 1 or the next cycle has fallen due meanwhile (log entry 16). -/
def Obligations.IllegalCommandWritesOnlyIllAndIllc : Prop :=
  ∀ (s : State) (w : Word) (rest : List HostEvent) (c : IllegalCause), s.pinsQuiet = true → s.phase = .idle →
    s.cycleDue = false → s.host = .command w :: rest → decodeCmd s.cfg.n s.cfg.mode w = .error c →
    ∃ t, step s = .next t ∧
      (t.rst = false → s.cfg.mode = .cmd ∨ t.timer ≠ .expired → t.outputs.cmdReady = true) ∧
      t = { s with ill := true, illc := if s.ill = true then s.illc else c.code, host := rest,
                   pins := s.pins.tail, timer := t.timer, draws := t.draws } ∧
      (s.cfg.mode = .cmd → t.timer = s.timer ∧ t.draws = s.draws)

/-- 10_state.md R22: the update on an illegal command, that only reset clears `ill`, and the reset values. -/
def Obligations.IllIsStickyAndKeepsTheFirstCause : Prop :=
  (∀ (s t : State) (w : Word) (rest : List HostEvent) (c : IllegalCause), s.pinsQuiet = true →
    s.cycleDue = false → s.host = .command w :: rest → decodeCmd s.cfg.n s.cfg.mode w = .error c → step s = .next t →
    t.ill = true ∧ (s.ill = false → t.illc = c.code) ∧ (s.ill = true → t.illc = s.illc)) ∧
    (∀ s t, step s = .next t → s.ill = true → (∀ rest, s.pins ≠ .reset :: rest) →
      t.ill = true ∧ t.illc = s.illc) ∧
    (∀ s t rest, s.pins = .reset :: rest → step s = .next t → t.ill = false ∧ t.illc = 0) ∧
    State.reset.ill = false ∧ State.reset.illc = 0

/-- 30_encoding.md section 3, 60_exceptions.md section 1: in AUTO every command but NOP and PEEK whose offset is in range
raises cause 4, and none of its effect happens. -/
def Obligations.AutoModeForbidsAllButNopAndPeek : Prop :=
  ∀ (s : State) (i : Instr), s.cfg.mode = .auto → i.offsetInRange s.cfg.n = true → i ≠ .nop → (∀ o, i ≠ .peek o) →
    exec i s = .next { s with ill := true, illc := if s.ill = true then s.illc else 4 }

/-- 30_encoding.md section 3, 60_exceptions.md section 1: PEEK and DECODE at an offset of N or more raise cause 3, in both
modes, and none of their effect happens. -/
def Obligations.OffsetBeyondTheRingIsCause3 : Prop :=
  ∀ (s : State) (o : Offset), s.cfg.n ≤ o.toNat →
    exec (.peek o) s = .next { s with ill := true, illc := if s.ill = true then s.illc else 3 } ∧
      exec (.decode o) s = .next { s with ill := true, illc := if s.ill = true then s.illc else 3 }

/-! ### The step -/

/-- 30_encoding.md section 3, 20_memory.md section 5: a step with a legal command word first at the port, and neither a
reset nor a change of the strap first at the pins, is `exec` of the decoded command on the state without that word; in AUTO,
inside the cadence wait, the command's latency then goes by on the cadence timer (a free value, log entry 5). The last
clause is about the model's own way of offering a word, `withFetchWord`, which places it so that the very next step takes it
(a DESIGN CHOICE, log entry 4). -/
def Obligations.StepRunsTheDecodedCommand : Prop :=
  (∀ (s : State) (w : Word) (rest : List HostEvent) (i : Instr), s.pinsQuiet = true → s.phase = .idle →
    s.host = .command w :: rest → decodeCmd s.cfg.n s.cfg.mode w = .ok i →
    (s.cfg.mode = .cmd → step s = exec i { s with host := rest, pins := s.pins.tail }) ∧
      (s.cfg.mode = .auto → s.timer ≠ .expired →
        ∃ t, exec i { s with host := rest, pins := s.pins.tail } = .next t ∧
          step s = .next { t with timer := t.timer.advance (Config.latency t.draws), draws := t.draws + 1 })) ∧
    ∀ (s : State) (nbits w : Nat) (i : Instr), s.phase = .idle → s.cfg.mode = .cmd →
      decodeCmd s.cfg.n .cmd (tableWord nbits w) = .ok i → step (s.withFetchWord nbits w) = exec i s

/-- 60_exceptions.md section 3: reset beats everything: from any state, and between any two operations of a run, after
exactly the events that stand before it at the pins, whatever the host holds at the command port and however long the AUTO
cycles take; a cycle that is due beats the command, which stays offered and is taken inside the cadence wait; a command is
taken only while no operation is in progress and no cycle is due. That a cycle which is due and has not begun leaves no
command to be taken is the model's reading of R46 with R100 (DEDUCED, log entry 16); and that the next cycle goes first also
right after a cycle that overran, where R100 leaves open whether a held command gets its turn, is the model's choice (DESIGN
CHOICE, log entry 17): the third and the fifth clause rest on it in those states. -/
def Obligations.ResetBeatsCycleBeatsCommand : Prop :=
  (∀ (s : State) (rest : List PinEvent), s.pins = .reset :: rest →
    step s = .next ({ s with pins := rest } : State).resetState) ∧
    (∀ (s : State) (ps rest : List PinEvent), s.phase = .idle → s.pins = ps ++ .reset :: rest →
      ∃ t, run ps.length s = .next t ∧ t.pins = .reset :: rest ∧
        step t = .next ({ t with pins := rest } : State).resetState) ∧
    (∀ (s : State) (w : Word) (rest : List HostEvent), s.pinsQuiet = true → s.phase = .idle → s.cfg.mode = .auto →
      s.timer = .expired → s.host = .command w :: rest →
      ∃ t, step s = .next t ∧ t = ({ s with pins := s.pins.tail } : State).autoCycle ∧ t.host = .command w :: rest ∧
        t.phase = .idle) ∧
    (∀ (s : State) (w : Word) (rest : List HostEvent), s.pinsQuiet = true → s.phase = .idle → s.cfg.mode = .auto →
      s.timer ≠ .expired → s.host = .command w :: rest →
      ∃ t u, acceptCommand w { s with host := rest, pins := s.pins.tail } = .next u ∧ step s = .next t ∧
        t.host = rest ∧ t = { u with timer := t.timer, draws := t.draws }) ∧
    ∀ (s t : State) (w : Word) (rest : List HostEvent), s.host = .command w :: rest → step s = .next t →
      t.host = rest → s.pinsQuiet = true ∧ s.phase = .idle ∧ s.cycleDue = false

/-- 60_exceptions.md section 1: no condition in the block's operation is a fault. Between two operations every step
answers a next state, whatever the host and the Source do; and so does every command from every state. -/
def Obligations.NoConditionStopsTheBlock : Prop :=
  (∀ s : State, s.phase = .idle → ∃ t, step s = .next t) ∧ ∀ (i : Instr) (s : State), ∃ t, exec i s = .next t

/-- 43_framing_fsm.md section 3: in AUTO every cycle is eventually followed by another: with no reset ahead, the next
autonomous cycle starts within one step more than there are events to come at the command port and the pins. -/
def Obligations.AutoCyclesRecur : Prop :=
  ∀ s : State, s.Inv → s.cfg.mode = .auto → s.noResetAhead →
    ∃ k ≤ s.host.length + s.pins.length + 1, ∃ t, run k s = .next t ∧ t.startsCycle ∧
      step t = .next ({ t with pins := t.pins.tail } : State).autoCycle

/-- 43_framing_fsm.md section 3: the cadence wait after a cycle of elapsed time `e` ends after exactly `wait(e)` ticks, so
that the time from start to start is `max(T, e)`; and scenario B: 120 ms against 80 ms, no wait. -/
def Obligations.CadenceWaitFillsThePeriod : Prop :=
  (∀ e k : Nat, (CadenceTimer.atTicks e).advance k = .expired ↔ cadenceWait Config.cadenceTicks e ≤ k) ∧
    (∀ T e : Nat, e + cadenceWait T e = max T e) ∧ cadenceWait Config.tCycleMs 120 = 0 ∧
    ∀ s : State, s.autoCycle.timer = CadenceTimer.atTicks (Config.latency s.cycleOnce.draws)

/-! ### The accumulator -/

/-- 20_memory.md section 5, 40_accumulator.md section 1: a read returns the byte last written at the offset, and a write
leaves every other offset alone. -/
def Obligations.ReadReturnsTheLastWrite : Prop :=
  ∀ (s : State) (o : Nat) (b : Byte) (a : Nat), s.mem.wf →
    (s.writeByte o b).byteAt a = if a % s.cfg.n = o % s.cfg.n then b else s.byteAt a

/-- 40_accumulator.md R56: the window's length and bytes, its offset reduced modulo N, its repetition beyond N, and the
empty window. -/
def Obligations.WindowReadsWrapModuloN : Prop :=
  ∀ (s : State) (o k : Nat),
    (s.readWindow o k).length = k ∧
      (∀ i < k, (s.readWindow o k)[i]? = some (s.mem.read ((o + i) % s.cfg.n))) ∧
      s.readWindow (o % s.cfg.n) k = s.readWindow o k ∧ s.readWindow o 0 = [] ∧
      ∀ i, i + s.cfg.n < k → (s.readWindow o k)[i + s.cfg.n]? = (s.readWindow o k)[i]?

/-- 40_accumulator.md R57: the bytes one at a time in list order, each at `pos`, which then advances modulo N; no other
register changes. -/
def Obligations.AppendLoopsOverItsBytes : Prop :=
  ∀ (s : State) (bs : List Byte), s.Inv →
    s.appendBytes [] = s ∧
      (∀ b, ∃ t : State, s.appendBytes (b :: bs) = t.appendBytes bs ∧ t.byteAt s.pos.toNat = b ∧
        (∀ a < s.cfg.n, a ≠ s.pos.toNat → t.byteAt a = s.byteAt a) ∧ t.pos.toNat = (s.pos.toNat + 1) % s.cfg.n ∧
        t = { s with mem := t.mem, pos := t.pos }) ∧
      s.appendBytes bs = { s with mem := (s.appendBytes bs).mem, pos := (s.appendBytes bs).pos }

/-- 40_accumulator.md R58: the cursor and every ring byte after an append of any length; the last byte that lands on an
offset wins; with at most N bytes the list occupies the offsets from `p0` in order. -/
def Obligations.AppendLastByteOnAnOffsetWins : Prop :=
  ∀ (s : State) (bs : List Byte), s.Inv →
    (s.appendBytes bs).pos.toNat = (s.pos.toNat + bs.length) % s.cfg.n ∧
      (∀ i < s.cfg.n, (∀ j < bs.length, (s.pos.toNat + j) % s.cfg.n ≠ i) →
        (s.appendBytes bs).byteAt i = s.byteAt i) ∧
      (∀ (i j : Nat) (hj : j < bs.length), (s.pos.toNat + j) % s.cfg.n = i →
        (∀ j' < bs.length, (s.pos.toNat + j') % s.cfg.n = i → j' ≤ j) → (s.appendBytes bs).byteAt i = bs[j]) ∧
      (bs.length ≤ s.cfg.n →
        (∀ j < bs.length, ∀ j' < bs.length, (s.pos.toNat + j) % s.cfg.n = (s.pos.toNat + j') % s.cfg.n → j = j') ∧
        ∀ (j : Nat) (hj : j < bs.length), (s.appendBytes bs).byteAt ((s.pos.toNat + j) % s.cfg.n) = bs[j])

/-- 40_accumulator.md section 2: APPEND writes one byte at the cursor and advances it; every other byte, and every register
but the cursor, is unchanged. -/
def Obligations.AppendCommandStoresAndAdvances : Prop :=
  ∀ (s : State) (b : Byte), s.Inv → s.cfg.mode = .cmd →
    ∃ t, exec (.append b) s = .next t ∧ t.byteAt s.pos.toNat = b ∧
      (∀ a < s.cfg.n, a ≠ s.pos.toNat → t.byteAt a = s.byteAt a) ∧ t.pos.toNat = (s.pos.toNat + 1) % s.cfg.n ∧
      t = { s with mem := t.mem, pos := t.pos }

/-- 40_accumulator.md section 2: PEEK puts the ring byte at its offset into `rdata`, in both modes; nothing else changes,
no ring byte and not the cursor. -/
def Obligations.PeekCommandReadsOneByte : Prop :=
  ∀ (s : State) (o : Offset), o.toNat < s.cfg.n →
    exec (.peek o) s = .next { s with rdata := s.mem.read o.toNat }

/-- 40_accumulator.md section 1 (the wraparound property): from any state in CMD mode that meets the invariant with `pos =
0`, nothing offered and no event to come at the pins, a program of APPENDs leaves the cursor at `M mod N` and the last N
bytes of the stream in the ring, and every window over them reads the stream, across the wrap boundary or not. -/
def Obligations.AppendedStreamReadsBackAcrossTheWrap : Prop :=
  ∀ (s : State) (bs : List Byte), s.Inv → s.cfg.mode = .cmd → s.host = [] →
    s.pins = [] → s.pos = 0 →
    ∃ t, run bs.length (s.offer (bs.map (fun b => encode (.append b)))) = .next t ∧ t.programDone ∧
      t.pos.toNat = bs.length % s.cfg.n ∧
      (∀ (i : Nat) (hi : i < bs.length), bs.length - s.cfg.n ≤ i → t.byteAt (i % s.cfg.n) = bs[i]) ∧
      ∀ i k : Nat, bs.length - s.cfg.n ≤ i → i + k ≤ bs.length →
        t.readWindow (i % s.cfg.n) k = (bs.drop i).take k

/-! ### The detector -/

/-- 41_detector.md R63: four exact byte equalities, for every offset, a wrapping window included. -/
def Obligations.SignatureMatchIsFourByteEqualities : Prop :=
  ∀ (s : State) (o : Nat),
    s.sigMatch o = true ↔
      s.mem.read (o % s.cfg.n) = 0x7F ∧ s.mem.read ((o + 1) % s.cfg.n) = 0xF0 ∧
        s.mem.read ((o + 2) % s.cfg.n) = 0x1C ∧ s.mem.read ((o + 3) % s.cfg.n) = 0xAF

/-- 41_detector.md R66: the scan is exact, with neither false positives nor false negatives inside the scanned range, and
the smallest scan index wins. -/
def Obligations.ScanIsExact : Prop :=
  ∀ (s : State) (p : Nat), s.cfg.wf →
    (∀ o, s.findStart p = some o ↔
      o < s.cfg.n ∧ s.sigMatch o = true ∧ scanIndex s.cfg.n p o ≤ s.cfg.n - 4 ∧
        ∀ o' < s.cfg.n, scanIndex s.cfg.n p o' < scanIndex s.cfg.n p o → s.sigMatch o' = false) ∧
      (s.findStart p = none ↔ ∀ o < s.cfg.n, scanIndex s.cfg.n p o ≤ s.cfg.n - 4 → s.sigMatch o = false)

/-- 41_detector.md section 1 (the seam): the three windows that hold both the newest and the oldest byte are never
answered, and a scan that finds a lone signature there answers none. -/
def Obligations.SeamWindowsAreNeverFound : Prop :=
  ∀ (s : State) (p k : Nat), s.cfg.wf → p < s.cfg.n → k < 3 →
    s.findStart p ≠ some ((p + s.cfg.n - 3 + k) % s.cfg.n) ∧
      ((∀ o < s.cfg.n, s.sigMatch o = true → o = (p + s.cfg.n - 3 + k) % s.cfg.n) → s.findStart p = none)

/-- 41_detector.md R68: no proper suffix of the signature is a prefix of it, so two signature runs in the ring are at
least 4 scan indices apart. -/
def Obligations.SignatureRunsDoNotOverlap : Prop :=
  ([0xAF] : List Byte) ≠ [0x7F] ∧ ([0x1C, 0xAF] : List Byte) ≠ [0x7F, 0xF0] ∧
    ([0xF0, 0x1C, 0xAF] : List Byte) ≠ [0x7F, 0xF0, 0x1C] ∧
    ∀ (s : State) (p a b : Nat), a < s.cfg.n → b < s.cfg.n → s.sigMatch a = true → s.sigMatch b = true → a ≠ b →
      scanIndex s.cfg.n p a + 4 ≤ scanIndex s.cfg.n p b ∨ scanIndex s.cfg.n p b + 4 ≤ scanIndex s.cfg.n p a

/-- 41_detector.md section 2: FIND reports the scan from the cursor in `found` and `foff`, and changes nothing else: not
the cursor, not the ring; nothing is published. -/
def Obligations.FindCommandReportsTheScan : Prop :=
  ∀ s : State, s.Inv → s.cfg.mode = .cmd →
    (∀ o, s.findStart s.pos.toNat = some o →
      exec .find s = .next { s with found := true, foff := BitVec.ofNat 12 o } ∧ (BitVec.ofNat 12 o).toNat = o) ∧
      (s.findStart s.pos.toNat = none → exec .find s = .next { s with found := false, foff := 0 })

/-! ### The decoder -/

/-- 30_encoding.md R44: the unsigned value of a big-endian field, and the rule's two examples. -/
def Obligations.BigEndianFieldValue : Prop :=
  (∀ b0 b1 b2 b3 : Byte,
    (be32 b0 b1 b2 b3).toNat = b0.toNat * 2 ^ 24 + b1.toNat * 2 ^ 16 + b2.toNat * 2 ^ 8 + b3.toNat) ∧
    (be32 0x00 0x00 0x00 0x2A).toNat = 42 ∧ (be32 0x80 0x00 0x00 0x00).toNat = 2147483648

/-- 42_decoder.md section 1 (no validation): the record depends on window bytes 4 to 19 alone, so a window without a
signature decodes like one with it. -/
def Obligations.DecoderLooksOnlyAtBytes4To19 : Prop :=
  ∀ (s t : State) (fs fs' : Nat),
    (∀ i, 4 ≤ i → i < 20 → s.byteAt (fs + i) = t.byteAt (fs' + i)) → s.decodeFrame fs = t.decodeFrame fs'

/-- 42_decoder.md R74: encoding any four 32-bit patterns in the frame layout and decoding the 20 bytes gives the four
patterns back, wherever in the ring the bytes stand. -/
def Obligations.FrameRoundTripIsExact : Prop :=
  ∀ (s : State) (fs : Nat) (r : Record),
    s.readWindow fs 20 = Config.sig ++ beBytes r.count ++ beBytes r.x ++ beBytes r.y ++ beBytes r.z →
    s.decodeFrame fs = r

/-- 42_decoder.md section 2: DECODE fills the record registers from the window at its offset, signature or not; nothing
else changes and nothing is published. -/
def Obligations.DecodeCommandFillsTheRecord : Prop :=
  ∀ (s : State) (o : Offset), s.cfg.mode = .cmd → o.toNat < s.cfg.n →
    exec (.decode o) s = .next { s with record :=
      { count := be32 (s.byteAt (o.toNat + 4)) (s.byteAt (o.toNat + 5)) (s.byteAt (o.toNat + 6)) (s.byteAt (o.toNat + 7))
        x := be32 (s.byteAt (o.toNat + 8)) (s.byteAt (o.toNat + 9)) (s.byteAt (o.toNat + 10)) (s.byteAt (o.toNat + 11))
        y := be32 (s.byteAt (o.toNat + 12)) (s.byteAt (o.toNat + 13)) (s.byteAt (o.toNat + 14)) (s.byteAt (o.toNat + 15))
        z := be32 (s.byteAt (o.toNat + 16)) (s.byteAt (o.toNat + 17)) (s.byteAt (o.toNat + 18))
          (s.byteAt (o.toNat + 19)) } }

/-- 42_decoder.md section 1, 40_accumulator.md sections 1 and 2, 30_encoding.md section 4: on the whole machine, with no
event to come at the pins, the 20 APPENDs of PUSHFRAME followed by a DECODE at the frame's first byte put exactly the pushed
patterns into the record, wherever the frame wraps; the cursor stands after the frame and nothing is published. -/
def Obligations.PushedFrameDecodesToItsRecord : Prop :=
  ∀ (s : State) (r : Record) (ws : List Word), s.Inv → s.cfg.mode = .cmd → s.host = [] →
    s.pins = [] → 20 ≤ s.cfg.n →
    Assembler.assemble s.cfg.n [.pushFrame r.count.toNat r.x.toNat r.y.toNat r.z.toNat, .decode s.pos.toNat] = some ws →
    ∃ t, run ws.length (s.offer ws) = .next t ∧ t.programDone ∧ t.record = r ∧
      t.pos.toNat = (s.pos.toNat + 20) % s.cfg.n ∧
      t = { s with mem := t.mem, pos := t.pos, record := t.record }

/-- 30_encoding.md R47: the record as one 128-bit word, on `pub_record` and `o_rec`: the four fields in their bit ranges,
and the big-endian concatenation of the frame's bytes 4 to 19. -/
def Obligations.RecordWordLayout : Prop :=
  (∀ r : Record,
    r.toWord.extractLsb' 96 32 = r.count ∧ r.toWord.extractLsb' 64 32 = r.x ∧ r.toWord.extractLsb' 32 32 = r.y ∧
      r.toWord.extractLsb' 0 32 = r.z) ∧
    (∀ s : State, s.outputs.cmdReady = true → s.outputs.record = s.record.toWord) ∧
    ∀ (s : State) (fs i : Nat), i < 16 →
      (s.decodeFrame fs).toWord.extractLsb' (8 * (15 - i)) 8 = s.byteAt (fs + 4 + i)

/-! ### The framing state machine -/

/-- 43_framing_fsm.md section 1: NOP changes no register and no ring byte, in both modes. -/
def Obligations.NopCommandChangesNothing : Prop := ∀ s : State, exec .nop s = .next s

/-- 43_framing_fsm.md R83: after a match at `fs`, in FRAME, in CYCLE and in a cycle of AUTO, the cursor is exactly
`(fs + 20) mod N`, while the record decoded and published is that of the window at `fs`, before the cursor moves. -/
def Obligations.CursorAfterAMatch : Prop :=
  (∀ (s : State) (fs : Nat), s.Inv → s.cfg.mode = .cmd →
    (s.findStart s.pos.toNat = some fs →
      ∃ t, exec .frame s = .next t ∧ t.pos.toNat = (fs + 20) % s.cfg.n ∧ t.pub = s.pub ++ [s.decodeFrame fs]) ∧
      (s.ingest.findStart s.ingest.pos.toNat = some fs →
        ∃ t, exec .cycle s = .next t ∧ t.pos.toNat = (fs + 20) % s.cfg.n ∧
          t.pub = s.pub ++ [s.ingest.decodeFrame fs])) ∧
    ∀ (s : State) (fs : Nat), s.Inv → s.ingest.findStart s.ingest.pos.toNat = some fs →
      s.autoCycle.pos.toNat = (fs + 20) % s.cfg.n ∧ s.autoCycle.pub = s.pub ++ [s.ingest.decodeFrame fs]

/-- 43_framing_fsm.md section 1: FRAME on a match, the whole next state: `found`, `foff`, the record, one publish and the
cursor; the ring, `rdata`, `ill` and everything else unchanged. -/
def Obligations.FrameCommandOnAMatch : Prop :=
  ∀ (s : State) (fs : Nat), s.Inv → s.cfg.mode = .cmd → s.findStart s.pos.toNat = some fs →
    exec .frame s = .next { s with found := true, foff := BitVec.ofNat 12 fs, record := s.decodeFrame fs,
                                   pub := s.pub ++ [s.decodeFrame fs],
                                   pos := BitVec.ofNat 12 ((fs + 20) % s.cfg.n) } ∧
      (BitVec.ofNat 12 fs).toNat = fs

/-- 43_framing_fsm.md section 1: FRAME without a match clears `found` and `foff` and changes nothing else. -/
def Obligations.FrameCommandWithoutAMatch : Prop :=
  ∀ s : State, s.Inv → s.cfg.mode = .cmd → s.findStart s.pos.toNat = none →
    exec .frame s = .next { s with found := false, foff := 0 }

/-- 43_framing_fsm.md section 1: CYCLE completes; it appends one Source batch at the cursor and then does exactly what
FRAME does; every ring byte outside the batch, and every register but those FRAME and the append write, is unchanged. -/
def Obligations.CycleCommandIngestsThenFrames : Prop :=
  ∀ s : State, s.Inv → s.cfg.mode = .cmd →
    ∃ u t, exec .cycle s = .next t ∧ exec .frame u = .next t ∧
      t = { u with found := t.found, foff := t.foff, record := t.record, pub := t.pub, pos := t.pos } ∧
      u = { s with mem := u.mem, pos := u.pos, source := s.afterRead.source, draws := s.afterRead.draws } ∧
      u.pos.toNat = (s.pos.toNat + s.batch.length) % s.cfg.n ∧
      (∀ (j : Nat) (hj : j < s.batch.length), u.byteAt (s.pos.toNat + j) = s.batch[j]) ∧
      ∀ a < s.cfg.n, (∀ j < s.batch.length, (s.pos.toNat + j) % s.cfg.n ≠ a) → u.byteAt a = s.byteAt a

/-- 43_framing_fsm.md sections 1 and 3: the cycle that the block starts on its own in AUTO, when the cadence wait is over
and neither a reset nor a change of the strap stands first at the pins (the model takes such a change first, as a step of
its own, log entry 4), does exactly what the command CYCLE does in CMD; the command that is offered stays offered. Right
after a cycle that overran, that the next cycle starts before a held command is taken is the model's choice (DESIGN CHOICE,
log entry 17). Its elapsed time sets the cadence timer (timing only, log entry 5). -/
def Obligations.AutonomousCycleDoesWhatCycleDoes : Prop :=
  ∀ s : State, s.Inv → s.cfg.mode = .auto → s.timer = .expired → s.pinsQuiet = true →
    ∃ t u, step s = .next t ∧
      exec .cycle { s with cfg := { s.cfg with mode := .cmd }, pins := s.pins.tail } = .next u ∧
      t = { u with cfg := s.cfg, timer := t.timer, draws := u.draws + 1 }

/-- 43_framing_fsm.md section 2 (the Source): one read a cycle, at most MAX_BATCH bytes, appended in order; and an ERROR
answer is treated exactly like the empty batch. That an answer longer than MAX_BATCH is cut and its rest waits for the next
cycle's read is the model's reading of R81 and of the data-hazard table of 70_reset_and_hazards.md section 3 (DEDUCED, log
entry 3). -/
def Obligations.OneBoundedSourceReadPerCycle : Prop :=
  (∀ s : State, s.Inv → s.batch.length ≤ s.cfg.n) ∧
    (∀ (s t : State) (bs : List Byte) (src : List SourceAnswer), s.cfg.mode = .cmd → s.source = .bytes bs :: src →
      exec .cycle s = .next t →
      s.batch = bs.take s.cfg.n ∧ t.mem = (s.appendBytes (bs.take s.cfg.n)).mem ∧
        t.source = (if bs.length ≤ s.cfg.n then src else .bytes (bs.drop s.cfg.n) :: src)) ∧
    ∀ (s : State) (src : List SourceAnswer), s.cfg.mode = .cmd →
      exec .cycle { s with source := .error :: src } = exec .cycle { s with source := .bytes [] :: src }

/-- 43_framing_fsm.md section 2: a cycle that finds no match leaves the record and the published sequence, and moves the
cursor only by its batch: `(p0 + k) mod N`, the same value exactly when `k mod N = 0` (90_conflicts.md C5). -/
def Obligations.NoMatchMovesTheCursorByTheBatchOnly : Prop :=
  ∀ s : State, s.Inv → s.cfg.mode = .cmd → s.ingest.findStart s.ingest.pos.toNat = none →
    ∃ t, exec .cycle s = .next t ∧ t.record = s.record ∧ t.pub = s.pub ∧ t.found = false ∧ t.foff = 0 ∧
      t.pos.toNat = (s.pos.toNat + s.batch.length) % s.cfg.n ∧ (t.pos = s.pos ↔ s.batch.length % s.cfg.n = 0)

/-- 43_framing_fsm.md section 2 (publish): each step publishes at most one record, at the end of the sequence; FRAME and
CYCLE publish exactly when their scan finds a match, and no other command ever publishes. -/
def Obligations.PublishedOncePerMatchAndNeverElse : Prop :=
  (∀ s t, step s = .next t → t.pub = s.pub ∨ ∃ r, t.pub = s.pub ++ [r] ∧ t.record = r) ∧
    (∀ i s t, exec i s = .next t → i ≠ .frame → i ≠ .cycle → t.pub = s.pub) ∧
    (∀ s t, s.cfg.mode = .cmd → exec .frame s = .next t →
      (t.found = true ↔ t.pub = s.pub ++ [t.record]) ∧ (t.found = false ↔ t.pub = s.pub)) ∧
    ∀ s t, s.cfg.mode = .cmd → exec .cycle s = .next t →
      (t.found = true ↔ t.pub = s.pub ++ [t.record]) ∧ (t.found = false ↔ t.pub = s.pub)

/-- 43_framing_fsm.md R84: the scan of the cycle after a match at `fs` starts at `(fs + 20 + k) mod N` for a batch of `k`
bytes, which is `(fs + 20) mod N` only when `k mod N = 0`; after a FRAME command the same holds for `a` APPENDs. -/
def Obligations.NextScanStartsPastTheBatch : Prop :=
  ∀ (s t : State) (fs : Nat), s.Inv → s.cfg.mode = .cmd →
    (exec .frame s = .next t ∧ s.findStart s.pos.toNat = some fs) ∨
      (exec .cycle s = .next t ∧ s.ingest.findStart s.ingest.pos.toNat = some fs) →
    t.ingest.pos.toNat = (fs + 20 + t.batch.length) % s.cfg.n ∧
      (t.ingest.pos.toNat = (fs + 20) % s.cfg.n ↔ t.batch.length % s.cfg.n = 0) ∧
      ∀ bs : List Byte, (t.appendBytes bs).pos.toNat = (fs + 20 + bs.length) % s.cfg.n

/-- 43_framing_fsm.md R90: a consumed frame is found and published again by the next cycle, whose batch of at most
`N - 20` bytes does not touch it, unless an older window matches first; the cursor then returns to where the consumption
had left it. -/
def Obligations.ConsumedFrameIsPublishedAgain : Prop :=
  ∀ (s t : State) (fs : Nat), s.Inv → s.cfg.mode = .cmd → 20 ≤ s.cfg.n →
    (exec .frame s = .next t ∧ s.findStart s.pos.toNat = some fs) ∨
      (exec .cycle s = .next t ∧ s.ingest.findStart s.ingest.pos.toNat = some fs) →
    t.batch.length ≤ s.cfg.n - 20 →
    (∀ i < 20, t.ingest.byteAt (fs + i) = t.byteAt (fs + i)) ∧
      scanIndex s.cfg.n t.ingest.pos.toNat fs = s.cfg.n - 20 - t.batch.length ∧
      (∀ j < t.batch.length,
        s.cfg.n - t.batch.length ≤ scanIndex s.cfg.n t.ingest.pos.toNat ((t.pos.toNat + j) % s.cfg.n)) ∧
      ((∀ o < s.cfg.n, scanIndex s.cfg.n t.ingest.pos.toNat o < s.cfg.n - 20 - t.batch.length →
          t.ingest.sigMatch o = false) →
        ∃ u, exec .cycle t = .next u ∧ u.foff.toNat = fs ∧ u.pos = t.pos ∧ u.record = t.record ∧
          u.pub = s.pub ++ [t.record, t.record])

/-- 43_framing_fsm.md R91: the ring bytes that stand after a consumed frame, from `q` to the write boundary `p` of the scan
that consumed it, are overwritten by the next cycle's batch before any scan: the first `min(k, (p - q) mod N)` of them. -/
def Obligations.BytesAfterAConsumedFrameAreOverwritten : Prop :=
  ∀ (s u t : State) (fs : Nat), s.Inv → s.cfg.mode = .cmd →
    (exec .frame s = .next t ∧ u = s) ∨ (exec .cycle s = .next t ∧ u = s.ingest) →
    u.findStart u.pos.toNat = some fs →
    ∀ (j : Nat) (hj : j < t.batch.length), j < scanIndex s.cfg.n ((fs + 20) % s.cfg.n) u.pos.toNat →
      t.byteAt ((fs + 20) % s.cfg.n + j) = u.byteAt ((fs + 20) % s.cfg.n + j) ∧
        t.ingest.byteAt ((fs + 20) % s.cfg.n + j) = t.batch[j]

/-- 43_framing_fsm.md R92: a match `d > N - 20` bytes past the write boundary, in FRAME or CYCLE, decodes the oldest ring
bytes for the missing tail, publishes the record made from them, moves the cursor `m = d + 20 - N` bytes past the boundary,
and the next appended byte lands there, while the `m` bytes at the boundary stay (in a ring of more than `m` bytes). -/
def Obligations.PartialFrameDecodesStaleBytes : Prop :=
  ∀ (s u : State) (fs : Nat), s.Inv → s.cfg.mode = .cmd → u = s ∨ u = s.ingest → u.findStart u.pos.toNat = some fs →
    s.cfg.n < scanIndex s.cfg.n u.pos.toNat fs + 20 →
    ∃ t m, (u = s → exec .frame s = .next t) ∧ (u = s.ingest → exec .cycle s = .next t) ∧
      m + s.cfg.n = scanIndex s.cfg.n u.pos.toNat fs + 20 ∧ 1 ≤ m ∧ m ≤ 16 ∧
      (∀ i, 20 - m ≤ i → i < 20 →
        (u.readWindow fs 20)[i]? = some (u.byteAt (u.pos.toNat + (i - (20 - m))))) ∧
      t.pub = s.pub ++ [u.decodeFrame fs] ∧ t.pos.toNat = (u.pos.toNat + m) % s.cfg.n ∧
      ∀ b : Byte, (t.appendByte b).byteAt (u.pos.toNat + m) = b ∧
        (m < s.cfg.n → ∀ i < m, (t.appendByte b).byteAt (u.pos.toNat + i) = u.byteAt (u.pos.toNat + i))

/-! ### Who writes what -/

/-- 10_state.md R16: only APPEND and step 1 of a cycle write the ring: the other commands leave every ring byte, and so
does every step that is no reset, no autonomous cycle, and takes neither APPEND nor CYCLE; and an append is one byte at a
time at `mem[pos]`. -/
def Obligations.OnlyAppendsWriteTheRing : Prop :=
  (∀ i s t, exec i s = .next t → (∀ b, i ≠ .append b) → i ≠ .cycle → t.mem = s.mem) ∧
    (∀ s t, step s = .next t → (∀ rest, s.pins ≠ .reset :: rest) → ¬ s.startsCycle →
      (∀ b, ¬ s.offers (.append b)) → ¬ s.offers .cycle → t.mem = s.mem) ∧
    (∀ s : State, s.frameOnce.mem = s.mem) ∧
    ∀ (s : State) (b : Byte), (s.appendByte b).mem = s.mem.write (s.pos.toNat % s.cfg.n) b

/-- 10_state.md R18: exactly two things write the cursor, an appended byte and a match in FRAME or CYCLE (and reset). -/
def Obligations.OnlyAppendsAndMatchesMoveTheCursor : Prop :=
  (∀ s : State, s.Inv → ∀ b, (s.appendByte b).pos.toNat = (s.pos.toNat + 1) % s.cfg.n) ∧
    (∀ s : State, s.Inv → ∀ fs, s.findStart s.pos.toNat = some fs → s.frameOnce.pos.toNat = (fs + 20) % s.cfg.n) ∧
    (∀ s : State, s.findStart s.pos.toNat = none → s.frameOnce.pos = s.pos) ∧
    (∀ i s t, exec i s = .next t → (∀ b, i ≠ .append b) → i ≠ .frame → i ≠ .cycle → t.pos = s.pos) ∧
    ∀ s t, step s = .next t → (∀ rest, s.pins ≠ .reset :: rest) → ¬ s.startsCycle →
      (∀ b, ¬ s.offers (.append b)) → ¬ s.offers .frame → ¬ s.offers .cycle → t.pos = s.pos

/-- 10_state.md R20: `found` and `foff` are written by FIND, FRAME and CYCLE alone (and by reset), with the result of the
scan; and their reset values. -/
def Obligations.OnlyScansWriteFoundAndFoff : Prop :=
  (∀ (s t : State) (i : Instr), s.Inv → s.cfg.mode = .cmd → (i = .find ∨ i = .frame) → exec i s = .next t →
    (∀ o, s.findStart s.pos.toNat = some o → t.found = true ∧ t.foff.toNat = o) ∧
      (s.findStart s.pos.toNat = none → t.found = false ∧ t.foff = 0)) ∧
    (∀ s t : State, s.Inv → s.cfg.mode = .cmd → exec .cycle s = .next t →
      (∀ o, s.ingest.findStart s.ingest.pos.toNat = some o → t.found = true ∧ t.foff.toNat = o) ∧
        (s.ingest.findStart s.ingest.pos.toNat = none → t.found = false ∧ t.foff = 0)) ∧
    (∀ i s t, exec i s = .next t → i ≠ .find → i ≠ .frame → i ≠ .cycle → t.found = s.found ∧ t.foff = s.foff) ∧
    (∀ s t, step s = .next t → (∀ rest, s.pins ≠ .reset :: rest) → ¬ s.startsCycle →
      ¬ s.offers .find → ¬ s.offers .frame → ¬ s.offers .cycle → t.found = s.found ∧ t.foff = s.foff) ∧
    State.reset.found = false ∧ State.reset.foff = 0

/-- 10_state.md R21: `rdata` holds the byte the most recent PEEK read; no other command and no step without a PEEK but a
reset writes it; its reset value. -/
def Obligations.OnlyPeekWritesRdata : Prop :=
  (∀ (s t : State) (o : Offset), o.toNat < s.cfg.n → exec (.peek o) s = .next t → t.rdata = s.byteAt o.toNat) ∧
    (∀ i s t, exec i s = .next t → (∀ o, i ≠ .peek o) → t.rdata = s.rdata) ∧
    (∀ s t, step s = .next t → (∀ rest, s.pins ≠ .reset :: rest) → (∀ o, ¬ s.offers (.peek o)) → t.rdata = s.rdata) ∧
    (∀ s : State, s.autoCycle.rdata = s.rdata) ∧ State.reset.rdata = 0x00

/-- 10_state.md section 3: the record registers are written, all four at once, by DECODE and by a FRAME or CYCLE that
finds a match, by no other command, and by no step that takes none of these but a reset or an autonomous cycle. -/
def Obligations.OnlyDecodesWriteTheRecord : Prop :=
  (∀ i s t, exec i s = .next t → (∀ o, i ≠ .decode o) → i ≠ .frame → i ≠ .cycle → t.record = s.record) ∧
    (∀ s t, step s = .next t → (∀ rest, s.pins ≠ .reset :: rest) → ¬ s.startsCycle →
      (∀ o, ¬ s.offers (.decode o)) → ¬ s.offers .frame → ¬ s.offers .cycle → t.record = s.record) ∧
    (∀ (s : State) (fs : Nat), s.findStart s.pos.toNat = some fs → s.frameOnce.record = s.decodeFrame fs) ∧
    ∀ s : State, s.findStart s.pos.toNat = none → s.frameOnce.record = s.record

/-- 10_state.md section 3, 30_encoding.md section 2: 70_reset_and_hazards.md section 1: where the next rising edge has `rst`
= 0, no operation is in progress and no cycle is due, `cmd_ready` is 1 and every status output shows its register; elsewhere
`cmd_ready` is 0, above all while `rst` is 1, whatever changes of the strap come before that edge; and a command word that
is offered transfers at the next rising edge, the first step that is no change of the strap (which takes no edge, log entry
4), exactly when `cmd_ready` is 1. That a cycle that is due and has not begun makes `cmd_ready` 0 is the model's reading of
R46 with 60_exceptions.md R100 (DEDUCED, log entry 16); that such a cycle goes before a held command also right after one
that overran is the model's choice (DESIGN CHOICE, log entry 17). -/
def Obligations.StatusOutputsShowTheRegisters : Prop :=
  (∀ s : State, (∀ (ms : List Mode) (rest : List PinEvent), s.pins ≠ ms.map PinEvent.strap ++ .reset :: rest) →
    s.phase = .idle → s.cycleDue = false →
    s.outputs =
      { cmdReady := true, rdata := s.rdata, pos := s.pos, found := if s.found then 1 else 0, foff := s.foff,
        record := s.record.toWord, ill := if s.ill then 1 else 0, illc := s.illc, phase := 0 }) ∧
    (∀ s : State,
      (∃ (ms : List Mode) (rest : List PinEvent), s.pins = ms.map PinEvent.strap ++ .reset :: rest) ∨
        s.phase ≠ .idle ∨ s.cycleDue = true →
      s.outputs.cmdReady = false) ∧
    ∀ (s : State) (w : Word) (rest : List HostEvent) (ms : List Mode) (ps : List PinEvent),
      s.host = .command w :: rest → s.pins = ms.map PinEvent.strap ++ ps → (∀ m r, ps ≠ .strap m :: r) →
      (s.outputs.cmdReady = true ↔ ∃ t, run (ms.length + 1) s = .next t ∧ t.host = rest)

/-! ### The invariant -/

/-- 70_reset_and_hazards.md section 1: the state after reset meets the invariant. -/
def Obligations.ResetSatisfiesTheInvariant : Prop := State.reset.Inv

/-- 10_state.md sections 2 to 4, 60_exceptions.md section 1, 20_memory.md section 1, 00_scope.md section 4: every step, from
every state that meets the invariant and whatever the host and the Source do, gives a state that meets it: N in its range,
the cursor and `foff` below N, `foff` 0 when `found` is 0, `illc` naming a cause exactly when `ill` is set, the phase IDLE
between operations, the timer below its period and expired in CMD. That the ring is a list in canonical form is the model's
own representation (DEDUCED, log entry 9), and the timer's ticks are its own too (log entry 5). -/
def Obligations.EveryStepKeepsTheInvariant : Prop := ∀ s t : State, s.Inv → step s = .next t → t.Inv

/-! ### Waits -/

/-- 60_exceptions.md section 10: all state is kept through a wait. Where neither a reset nor a change of the strap comes
next, no cycle is due and no command word is offered, a step keeps every register, the ring, the published sequence and the
Source: only the event the host has used up, the pins' own list and, in AUTO, the cadence timer change. The timer runs on by
an idle time, and runs out where the host offers nothing any more (the model's own lists of events, log entry 4). A change
of the strap moves the pin and nothing else, whatever the block waits for. -/
def Obligations.AllStateIsKeptThroughAWait : Prop :=
  (∀ s : State, s.phase = .idle → s.pinsQuiet = true → s.cycleDue = false → (∀ w rest, s.host ≠ .command w :: rest) →
    ∃ t, step s = .next t ∧ t = { s with host := s.host.tail, pins := s.pins.tail, timer := t.timer } ∧
      (s.cfg.mode = .cmd → t.timer = s.timer) ∧
      (s.cfg.mode = .auto → (∀ k rest, s.host = .idle k :: rest → t.timer = s.timer.advance k) ∧
        (s.host = [] → t.timer = .expired))) ∧
    ∀ (s : State) (m : Mode) (rest : List PinEvent), s.pins = .strap m :: rest →
      step s = .next { s with pins := rest, strap := m }
end

