-- ==== Sys2Proof/Laws/Decode.lean ====
section
/-! SUPPORT. The fields of a command word put together from fields, and when a command is illegal. -/

namespace Sys2Proof

@[simp] theorem fieldOp_pack (op : BitVec 4) (off : Offset) (rsv data : Byte) :
    fieldOp (packFields op off rsv data) = op := by
  apply BitVec.eq_of_getLsbD_eq
  intro i hi
  have h1 : ¬ 28 + i < 16 := by omega
  have h2 : ¬ 28 + i < 8 := by omega
  have h3 : 28 + i < 32 := by omega
  have h4 : 12 ≤ 28 + i - 16 := by omega
  have h5 : 8 ≤ 28 + i - 8 := by omega
  have h6 : data.getLsbD (28 + i) = false := BitVec.getLsbD_of_ge _ _ (by omega)
  simp [fieldOp, packFields, hi, h1, h2, h3, BitVec.getLsbD_of_ge, h4, h5, h6]

@[simp] theorem fieldOff_pack (op : BitVec 4) (off : Offset) (rsv data : Byte) :
    fieldOff (packFields op off rsv data) = off := by
  apply BitVec.eq_of_getLsbD_eq
  intro i hi
  have h1 : 16 + i < 28 := by omega
  have h2 : ¬ 16 + i < 8 := by omega
  have h3 : 16 + i < 32 := by omega
  have h5 : 8 ≤ 16 + i - 8 := by omega
  have h6 : data.getLsbD (16 + i) = false := BitVec.getLsbD_of_ge _ _ (by omega)
  simp [fieldOff, packFields, hi, h1, h2, h3, BitVec.getLsbD_of_ge, h5, h6]

@[simp] theorem fieldRsv_pack (op : BitVec 4) (off : Offset) (rsv data : Byte) :
    fieldRsv (packFields op off rsv data) = rsv := by
  apply BitVec.eq_of_getLsbD_eq
  intro i hi
  have h1 : 8 + i < 28 := by omega
  have h2 : 8 + i < 16 := by omega
  have h3 : 8 + i < 32 := by omega
  simp [fieldRsv, packFields, hi, h1, h2, h3]

@[simp] theorem fieldData_pack (op : BitVec 4) (off : Offset) (rsv data : Byte) :
    fieldData (packFields op off rsv data) = data := by
  apply BitVec.eq_of_getLsbD_eq
  intro i hi
  have h1 : i < 28 := by omega
  have h2 : i < 16 := by omega
  have h3 : i < 32 := by omega
  simp [fieldData, packFields, hi, h1, h2, h3]

/-- A word is its four fields (30_encoding.md R48). -/
theorem pack_fields (w : Word) : packFields (fieldOp w) (fieldOff w) (fieldRsv w) (fieldData w) = w := by
  apply BitVec.eq_of_getLsbD_eq
  intro i hi
  by_cases h1 : i < 8
  · have h2 : i < 16 := by omega
    have h3 : i < 28 := by omega
    simp [packFields, fieldOp, fieldOff, fieldRsv, fieldData, hi, h1, h2, h3]
  · by_cases h2 : i < 16
    · have h3 : i < 28 := by omega
      have h4 : i - 8 < 8 := by omega
      have e : 8 + (i - 8) = i := by omega
      simp [packFields, fieldOp, fieldOff, fieldRsv, fieldData, hi, h1, h2, h3, h4, e]
    · by_cases h3 : i < 28
      · have h4 : ¬ i - 8 < 8 := by omega
        have h5 : i - 16 < 12 := by omega
        have e : 16 + (i - 16) = i := by omega
        simp [packFields, fieldOp, fieldOff, fieldRsv, fieldData, hi, h1, h2, h3, h4, h5, e]
      · have h4 : ¬ i - 8 < 8 := by omega
        have h5 : ¬ i - 16 < 12 := by omega
        have h6 : i - 28 < 4 := by omega
        have e : 28 + (i - 28) = i := by omega
        simp [packFields, fieldOp, fieldOff, fieldRsv, fieldData, hi, h1, h2, h3, h4, h5, h6, e]

theorem packFields_inj {op op' : BitVec 4} {off off' : Offset} {rsv rsv' data data' : Byte} :
    packFields op off rsv data = packFields op' off' rsv' data' ↔ op = op' ∧ off = off' ∧ rsv = rsv' ∧ data = data' := by
  constructor
  · intro h
    exact ⟨by simpa using congrArg fieldOp h, by simpa using congrArg fieldOff h, by simpa using congrArg fieldRsv h,
      by simpa using congrArg fieldData h⟩
  · rintro ⟨rfl, rfl, rfl, rfl⟩
    rfl

/-- A mask applies to each field by itself. -/
theorem packFields_and (op op' : BitVec 4) (off off' : Offset) (rsv rsv' data data' : Byte) :
    packFields op off rsv data &&& packFields op' off' rsv' data' =
      packFields (op &&& op') (off &&& off') (rsv &&& rsv') (data &&& data') := by
  have hf (x : Word) : x = packFields (fieldOp x) (fieldOff x) (fieldRsv x) (fieldData x) := (pack_fields x).symm
  rw [hf (packFields op off rsv data &&& packFields op' off' rsv' data'), packFields_inj]
  have e1 (a b : Word) : fieldOp (a &&& b) = fieldOp a &&& fieldOp b := BitVec.extractLsb'_and
  have e2 (a b : Word) : fieldOff (a &&& b) = fieldOff a &&& fieldOff b := BitVec.extractLsb'_and
  have e3 (a b : Word) : fieldRsv (a &&& b) = fieldRsv a &&& fieldRsv b := BitVec.extractLsb'_and
  have e4 (a b : Word) : fieldData (a &&& b) = fieldData a &&& fieldData b := BitVec.extractLsb'_and
  simp [e1, e2, e3, e4]

/-- A command that is well formed for a capacity and a mode is legal there, and the other way round. -/
theorem illegalIn_eq_none {n : Nat} {m : Mode} {i : Instr} : i.illegalIn n m = none ↔ i.wf n m = true := by
  unfold Instr.illegalIn Instr.wf
  cases i.offsetInRange n <;> cases i.allowedIn m <;> simp

/-- In CMD mode, with the offset in range, every command is legal. -/
theorem illegalIn_cmd {n : Nat} {i : Instr} (h : i.offsetInRange n = true) : i.illegalIn n .cmd = none := by
  cases i <;> simp_all [Instr.illegalIn, Instr.allowedIn]

/-- A decoded command is legal for the same capacity and mode: `exec` finds nothing more to object to. -/
theorem decodeCmd_ok_legal {n : Nat} {m : Mode} {w : Word} {i : Instr} (h : decodeCmd n m w = .ok i) :
    i.illegalIn n m = none := by
  unfold decodeCmd at h
  split at h
  · cases h
  · split at h
    · cases h
    · split at h
      · cases h
      · cases h
        assumption

end Sys2Proof
end

