-- ==== Sys2Proof/Laws/Memory.lean ====
section
/-! SUPPORT. The laws of the ring as a canonical list: a read after a write, and that every operation keeps the canonical
form and the range of offsets. -/

namespace Sys2Proof.Machine.Memory

@[simp] theorem read_nil (a : Nat) : read [] a = unlisted := rfl

@[simp] theorem wf_nil : wf [] := by simp [wf]

theorem wf_tail {x : Host.Cell} {m : Memory} (h : wf (x :: m)) : wf m :=
  ⟨(List.pairwise_cons.mp h.1).2, fun c hc => h.2 c (List.mem_cons_of_mem _ hc)⟩

theorem wf_head_lt {x : Host.Cell} {m : Memory} (h : wf (x :: m)) : ∀ c ∈ m, x.1 < c.1 :=
  (List.pairwise_cons.mp h.1).1

/-- An offset below every listed one reads as unlisted. -/
theorem read_of_lt {m : Memory} {a : Nat} (h : ∀ c ∈ m, a < c.1) : m.read a = unlisted := by
  cases m with
  | nil => rfl
  | cons x m =>
    have hx := h x List.mem_cons_self
    simp [read, hx, Nat.ne_of_lt hx]

theorem mem_write {m : Memory} {a : Nat} {b : Byte} {c : Host.Cell} (h : c ∈ m.write a b) :
    c ∈ m ∨ (c = (a, b) ∧ b ≠ unlisted) := by
  induction m with
  | nil =>
    simp only [write] at h
    split at h <;> simp_all
  | cons x m ih =>
    obtain ⟨k, v⟩ := x
    simp only [write] at h
    split at h
    · split at h
      · exact .inl h
      · rcases List.mem_cons.mp h with rfl | h
        · exact .inr ⟨rfl, ‹_›⟩
        · exact .inl h
    · split at h
      · split at h
        · exact .inl (List.mem_cons_of_mem _ h)
        · rcases List.mem_cons.mp h with rfl | h
          · exact .inr ⟨rfl, ‹_›⟩
          · exact .inl (List.mem_cons_of_mem _ h)
      · rcases List.mem_cons.mp h with rfl | h
        · exact .inl List.mem_cons_self
        · exact (ih h).imp_left (List.mem_cons_of_mem _)

/-- A write keeps the canonical form. -/
theorem write_wf {m : Memory} (hm : m.wf) (a : Nat) (b : Byte) : (m.write a b).wf := by
  induction m with
  | nil =>
    by_cases hb : b = unlisted <;> simp [write, wf, hb]
  | cons x m ih =>
    obtain ⟨k, v⟩ := x
    have htl := wf_tail hm
    have hlt : ∀ c ∈ m, k < c.1 := wf_head_lt hm
    have hv : v ≠ unlisted := hm.2 (k, v) List.mem_cons_self
    rcases Nat.lt_trichotomy a k with h | h | h
    · by_cases hb : b = unlisted
      · simpa [write, h, hb] using hm
      · have hall : ∀ c ∈ (k, v) :: m, a < c.1 := by
          intro c hc
          rcases List.mem_cons.mp hc with rfl | hc
          · exact h
          · exact Nat.lt_trans h (hlt c hc)
        simp only [write, h, hb, if_true, if_false]
        exact ⟨List.pairwise_cons.mpr ⟨hall, hm.1⟩, by simpa [hb] using hm.2⟩
    · subst h
      by_cases hb : b = unlisted
      · simpa [write, hb] using htl
      · simp only [write, Nat.lt_irrefl, hb, if_true, if_false]
        exact ⟨List.pairwise_cons.mpr ⟨hlt, htl.1⟩, by simpa [hb] using htl.2⟩
    · have hw : write ((k, v) :: m) a b = (k, v) :: write m a b := by
        simp [write, Nat.not_lt.mpr (Nat.le_of_lt h), Nat.ne_of_gt h]
      rw [hw]
      refine ⟨List.pairwise_cons.mpr ⟨?_, (ih htl).1⟩, ?_⟩
      · intro c hc
        rcases mem_write hc with hc | ⟨rfl, -⟩
        · exact hlt c hc
        · exact h
      · intro c hc
        rcases List.mem_cons.mp hc with rfl | hc
        · exact hv
        · exact (ih htl).2 c hc

/-- A write at an offset below a bound keeps every listed offset below it. -/
theorem write_lt {m : Memory} {n a : Nat} {b : Byte} (hm : ∀ c ∈ m, c.1 < n) (ha : a < n) :
    ∀ c ∈ m.write a b, c.1 < n := by
  intro c hc
  rcases mem_write hc with hc | ⟨rfl, -⟩
  · exact hm c hc
  · exact ha

/-- A read after a write: the byte written at that offset, everything else as before. -/
theorem read_write {m : Memory} (hm : m.wf) (a : Nat) (b : Byte) (a' : Nat) :
    (m.write a b).read a' = if a' = a then b else m.read a' := by
  induction m with
  | nil =>
    by_cases hb : b = unlisted <;> by_cases h : a' = a <;> simp [write, read, hb, h]
  | cons x m ih =>
    obtain ⟨k, v⟩ := x
    have htl := wf_tail hm
    have hlt : ∀ c ∈ m, k < c.1 := wf_head_lt hm
    rcases Nat.lt_trichotomy a k with h | h | h
    · by_cases hb : b = unlisted
      · by_cases h' : a' = a
        · subst h'
          simp [write, read, h, hb, Nat.ne_of_lt h]
        · simp [write, h, hb, h']
      · simp only [write, h, hb, if_true, if_false, read]
        by_cases h' : a' = a
        · simp [h']
        · by_cases h'' : a' < a
          · simp [h', h'', Nat.lt_trans h'' h, Nat.ne_of_lt (Nat.lt_trans h'' h)]
          · simp [h', h'']
    · subst h
      by_cases h' : a' = a
      · subst h'
        by_cases hb : b = unlisted
        · simp [write, hb, read_of_lt hlt]
        · simp [write, hb, read]
      · by_cases hb : b = unlisted
        · simp only [write, Nat.lt_irrefl, hb, if_true, if_false, read, h']
          split
          · rename_i h''
            exact read_of_lt fun c hc => Nat.lt_trans h'' (hlt c hc)
          · rfl
        · simp [write, hb, read, h']
    · have hw : write ((k, v) :: m) a b = (k, v) :: write m a b := by
        simp [write, Nat.not_lt.mpr (Nat.le_of_lt h), Nat.ne_of_gt h]
      rw [hw]
      by_cases h1 : a' = k
      · subst h1
        simp [read, Nat.ne_of_lt h]
      · by_cases h2 : a' < k
        · simp [read, h1, h2, Nat.ne_of_lt (Nat.lt_trans h2 h)]
        · simp [read, h1, h2, ih htl]

/-- The ring after reset is in canonical form, under either fill. -/
theorem resetRing_wf (c : Config) (d : Nat) : (resetRing c d).wf := by
  unfold resetRing
  split
  · exact wf_nil
  · refine ⟨List.Pairwise.filter _ ?_, ?_⟩
    · exact List.pairwise_map.mpr List.pairwise_lt_range
    · intro x hx
      simpa using (List.mem_filter.mp hx).2

/-- The ring after reset lists only offsets of the ring. -/
theorem resetRing_lt (c : Config) (d : Nat) : ∀ x ∈ resetRing c d, x.1 < c.n := by
  intro x hx
  unfold resetRing at hx
  split at hx
  · simp at hx
  · obtain ⟨i, hi, rfl⟩ := List.mem_map.mp (List.mem_filter.mp hx).1
    exact List.mem_range.mp hi

/-- Under ZERO every byte reads 0x00 after reset. -/
theorem resetRing_zero {c : Config} (h : c.fill = .zero) (d : Nat) : resetRing c d = [] := by
  simp [resetRing, h]

end Sys2Proof.Machine.Memory
end

