-- ==== Sys2Proof/Laws/State.lean ====
section
/-! SUPPORT. What each single-field update leaves and sets, one lemma per field and update, and the same for reset: later
proofs rewrite with these and never unfold an update. -/

namespace Sys2Proof.Machine.State

variable (s : State)

/-! ### writeByte -/

@[simp] theorem writeByte_cfg (o : Nat) (b : Byte) : (s.writeByte o b).cfg = s.cfg := rfl
@[simp] theorem writeByte_strap (o : Nat) (b : Byte) : (s.writeByte o b).strap = s.strap := rfl
@[simp] theorem writeByte_mem (o : Nat) (b : Byte) : (s.writeByte o b).mem = s.mem.write (o % s.cfg.n) b := rfl
@[simp] theorem writeByte_pos (o : Nat) (b : Byte) : (s.writeByte o b).pos = s.pos := rfl
@[simp] theorem writeByte_record (o : Nat) (b : Byte) : (s.writeByte o b).record = s.record := rfl
@[simp] theorem writeByte_found (o : Nat) (b : Byte) : (s.writeByte o b).found = s.found := rfl
@[simp] theorem writeByte_foff (o : Nat) (b : Byte) : (s.writeByte o b).foff = s.foff := rfl
@[simp] theorem writeByte_rdata (o : Nat) (b : Byte) : (s.writeByte o b).rdata = s.rdata := rfl
@[simp] theorem writeByte_ill (o : Nat) (b : Byte) : (s.writeByte o b).ill = s.ill := rfl
@[simp] theorem writeByte_illc (o : Nat) (b : Byte) : (s.writeByte o b).illc = s.illc := rfl
@[simp] theorem writeByte_phase (o : Nat) (b : Byte) : (s.writeByte o b).phase = s.phase := rfl
@[simp] theorem writeByte_timer (o : Nat) (b : Byte) : (s.writeByte o b).timer = s.timer := rfl
@[simp] theorem writeByte_host (o : Nat) (b : Byte) : (s.writeByte o b).host = s.host := rfl
@[simp] theorem writeByte_pins (o : Nat) (b : Byte) : (s.writeByte o b).pins = s.pins := rfl
@[simp] theorem writeByte_source (o : Nat) (b : Byte) : (s.writeByte o b).source = s.source := rfl
@[simp] theorem writeByte_pub (o : Nat) (b : Byte) : (s.writeByte o b).pub = s.pub := rfl
@[simp] theorem writeByte_draws (o : Nat) (b : Byte) : (s.writeByte o b).draws = s.draws := rfl

/-! ### setPos -/

@[simp] theorem setPos_cfg (p : Nat) : (s.setPos p).cfg = s.cfg := rfl
@[simp] theorem setPos_strap (p : Nat) : (s.setPos p).strap = s.strap := rfl
@[simp] theorem setPos_mem (p : Nat) : (s.setPos p).mem = s.mem := rfl
@[simp] theorem setPos_pos (p : Nat) : (s.setPos p).pos = BitVec.ofNat 12 (p % s.cfg.n) := rfl
@[simp] theorem setPos_record (p : Nat) : (s.setPos p).record = s.record := rfl
@[simp] theorem setPos_found (p : Nat) : (s.setPos p).found = s.found := rfl
@[simp] theorem setPos_foff (p : Nat) : (s.setPos p).foff = s.foff := rfl
@[simp] theorem setPos_rdata (p : Nat) : (s.setPos p).rdata = s.rdata := rfl
@[simp] theorem setPos_ill (p : Nat) : (s.setPos p).ill = s.ill := rfl
@[simp] theorem setPos_illc (p : Nat) : (s.setPos p).illc = s.illc := rfl
@[simp] theorem setPos_phase (p : Nat) : (s.setPos p).phase = s.phase := rfl
@[simp] theorem setPos_timer (p : Nat) : (s.setPos p).timer = s.timer := rfl
@[simp] theorem setPos_host (p : Nat) : (s.setPos p).host = s.host := rfl
@[simp] theorem setPos_pins (p : Nat) : (s.setPos p).pins = s.pins := rfl
@[simp] theorem setPos_source (p : Nat) : (s.setPos p).source = s.source := rfl
@[simp] theorem setPos_pub (p : Nat) : (s.setPos p).pub = s.pub := rfl
@[simp] theorem setPos_draws (p : Nat) : (s.setPos p).draws = s.draws := rfl

/-! ### setRecord -/

@[simp] theorem setRecord_cfg (r : Record) : (s.setRecord r).cfg = s.cfg := rfl
@[simp] theorem setRecord_strap (r : Record) : (s.setRecord r).strap = s.strap := rfl
@[simp] theorem setRecord_mem (r : Record) : (s.setRecord r).mem = s.mem := rfl
@[simp] theorem setRecord_pos (r : Record) : (s.setRecord r).pos = s.pos := rfl
@[simp] theorem setRecord_record (r : Record) : (s.setRecord r).record = r := rfl
@[simp] theorem setRecord_found (r : Record) : (s.setRecord r).found = s.found := rfl
@[simp] theorem setRecord_foff (r : Record) : (s.setRecord r).foff = s.foff := rfl
@[simp] theorem setRecord_rdata (r : Record) : (s.setRecord r).rdata = s.rdata := rfl
@[simp] theorem setRecord_ill (r : Record) : (s.setRecord r).ill = s.ill := rfl
@[simp] theorem setRecord_illc (r : Record) : (s.setRecord r).illc = s.illc := rfl
@[simp] theorem setRecord_phase (r : Record) : (s.setRecord r).phase = s.phase := rfl
@[simp] theorem setRecord_timer (r : Record) : (s.setRecord r).timer = s.timer := rfl
@[simp] theorem setRecord_host (r : Record) : (s.setRecord r).host = s.host := rfl
@[simp] theorem setRecord_pins (r : Record) : (s.setRecord r).pins = s.pins := rfl
@[simp] theorem setRecord_source (r : Record) : (s.setRecord r).source = s.source := rfl
@[simp] theorem setRecord_pub (r : Record) : (s.setRecord r).pub = s.pub := rfl
@[simp] theorem setRecord_draws (r : Record) : (s.setRecord r).draws = s.draws := rfl

/-! ### setRdata -/

@[simp] theorem setRdata_cfg (b : Byte) : (s.setRdata b).cfg = s.cfg := rfl
@[simp] theorem setRdata_strap (b : Byte) : (s.setRdata b).strap = s.strap := rfl
@[simp] theorem setRdata_mem (b : Byte) : (s.setRdata b).mem = s.mem := rfl
@[simp] theorem setRdata_pos (b : Byte) : (s.setRdata b).pos = s.pos := rfl
@[simp] theorem setRdata_record (b : Byte) : (s.setRdata b).record = s.record := rfl
@[simp] theorem setRdata_found (b : Byte) : (s.setRdata b).found = s.found := rfl
@[simp] theorem setRdata_foff (b : Byte) : (s.setRdata b).foff = s.foff := rfl
@[simp] theorem setRdata_rdata (b : Byte) : (s.setRdata b).rdata = b := rfl
@[simp] theorem setRdata_ill (b : Byte) : (s.setRdata b).ill = s.ill := rfl
@[simp] theorem setRdata_illc (b : Byte) : (s.setRdata b).illc = s.illc := rfl
@[simp] theorem setRdata_phase (b : Byte) : (s.setRdata b).phase = s.phase := rfl
@[simp] theorem setRdata_timer (b : Byte) : (s.setRdata b).timer = s.timer := rfl
@[simp] theorem setRdata_host (b : Byte) : (s.setRdata b).host = s.host := rfl
@[simp] theorem setRdata_pins (b : Byte) : (s.setRdata b).pins = s.pins := rfl
@[simp] theorem setRdata_source (b : Byte) : (s.setRdata b).source = s.source := rfl
@[simp] theorem setRdata_pub (b : Byte) : (s.setRdata b).pub = s.pub := rfl
@[simp] theorem setRdata_draws (b : Byte) : (s.setRdata b).draws = s.draws := rfl

/-! ### setPhase -/

@[simp] theorem setPhase_cfg (p : Phase) : (s.setPhase p).cfg = s.cfg := rfl
@[simp] theorem setPhase_strap (p : Phase) : (s.setPhase p).strap = s.strap := rfl
@[simp] theorem setPhase_mem (p : Phase) : (s.setPhase p).mem = s.mem := rfl
@[simp] theorem setPhase_pos (p : Phase) : (s.setPhase p).pos = s.pos := rfl
@[simp] theorem setPhase_record (p : Phase) : (s.setPhase p).record = s.record := rfl
@[simp] theorem setPhase_found (p : Phase) : (s.setPhase p).found = s.found := rfl
@[simp] theorem setPhase_foff (p : Phase) : (s.setPhase p).foff = s.foff := rfl
@[simp] theorem setPhase_rdata (p : Phase) : (s.setPhase p).rdata = s.rdata := rfl
@[simp] theorem setPhase_ill (p : Phase) : (s.setPhase p).ill = s.ill := rfl
@[simp] theorem setPhase_illc (p : Phase) : (s.setPhase p).illc = s.illc := rfl
@[simp] theorem setPhase_phase (p : Phase) : (s.setPhase p).phase = p := rfl
@[simp] theorem setPhase_timer (p : Phase) : (s.setPhase p).timer = s.timer := rfl
@[simp] theorem setPhase_host (p : Phase) : (s.setPhase p).host = s.host := rfl
@[simp] theorem setPhase_pins (p : Phase) : (s.setPhase p).pins = s.pins := rfl
@[simp] theorem setPhase_source (p : Phase) : (s.setPhase p).source = s.source := rfl
@[simp] theorem setPhase_pub (p : Phase) : (s.setPhase p).pub = s.pub := rfl
@[simp] theorem setPhase_draws (p : Phase) : (s.setPhase p).draws = s.draws := rfl

/-! ### setTimer -/

@[simp] theorem setTimer_cfg (t : CadenceTimer) : (s.setTimer t).cfg = s.cfg := rfl
@[simp] theorem setTimer_strap (t : CadenceTimer) : (s.setTimer t).strap = s.strap := rfl
@[simp] theorem setTimer_mem (t : CadenceTimer) : (s.setTimer t).mem = s.mem := rfl
@[simp] theorem setTimer_pos (t : CadenceTimer) : (s.setTimer t).pos = s.pos := rfl
@[simp] theorem setTimer_record (t : CadenceTimer) : (s.setTimer t).record = s.record := rfl
@[simp] theorem setTimer_found (t : CadenceTimer) : (s.setTimer t).found = s.found := rfl
@[simp] theorem setTimer_foff (t : CadenceTimer) : (s.setTimer t).foff = s.foff := rfl
@[simp] theorem setTimer_rdata (t : CadenceTimer) : (s.setTimer t).rdata = s.rdata := rfl
@[simp] theorem setTimer_ill (t : CadenceTimer) : (s.setTimer t).ill = s.ill := rfl
@[simp] theorem setTimer_illc (t : CadenceTimer) : (s.setTimer t).illc = s.illc := rfl
@[simp] theorem setTimer_phase (t : CadenceTimer) : (s.setTimer t).phase = s.phase := rfl
@[simp] theorem setTimer_timer (t : CadenceTimer) : (s.setTimer t).timer = t := rfl
@[simp] theorem setTimer_host (t : CadenceTimer) : (s.setTimer t).host = s.host := rfl
@[simp] theorem setTimer_pins (t : CadenceTimer) : (s.setTimer t).pins = s.pins := rfl
@[simp] theorem setTimer_source (t : CadenceTimer) : (s.setTimer t).source = s.source := rfl
@[simp] theorem setTimer_pub (t : CadenceTimer) : (s.setTimer t).pub = s.pub := rfl
@[simp] theorem setTimer_draws (t : CadenceTimer) : (s.setTimer t).draws = s.draws := rfl

/-! ### publish -/

@[simp] theorem publish_cfg (r : Record) : (s.publish r).cfg = s.cfg := rfl
@[simp] theorem publish_strap (r : Record) : (s.publish r).strap = s.strap := rfl
@[simp] theorem publish_mem (r : Record) : (s.publish r).mem = s.mem := rfl
@[simp] theorem publish_pos (r : Record) : (s.publish r).pos = s.pos := rfl
@[simp] theorem publish_record (r : Record) : (s.publish r).record = s.record := rfl
@[simp] theorem publish_found (r : Record) : (s.publish r).found = s.found := rfl
@[simp] theorem publish_foff (r : Record) : (s.publish r).foff = s.foff := rfl
@[simp] theorem publish_rdata (r : Record) : (s.publish r).rdata = s.rdata := rfl
@[simp] theorem publish_ill (r : Record) : (s.publish r).ill = s.ill := rfl
@[simp] theorem publish_illc (r : Record) : (s.publish r).illc = s.illc := rfl
@[simp] theorem publish_phase (r : Record) : (s.publish r).phase = s.phase := rfl
@[simp] theorem publish_timer (r : Record) : (s.publish r).timer = s.timer := rfl
@[simp] theorem publish_host (r : Record) : (s.publish r).host = s.host := rfl
@[simp] theorem publish_pins (r : Record) : (s.publish r).pins = s.pins := rfl
@[simp] theorem publish_source (r : Record) : (s.publish r).source = s.source := rfl
@[simp] theorem publish_pub (r : Record) : (s.publish r).pub = s.pub ++ [r] := rfl
@[simp] theorem publish_draws (r : Record) : (s.publish r).draws = s.draws := rfl

/-! ### setHost -/

@[simp] theorem setHost_cfg (h : List HostEvent) : (s.setHost h).cfg = s.cfg := rfl
@[simp] theorem setHost_strap (h : List HostEvent) : (s.setHost h).strap = s.strap := rfl
@[simp] theorem setHost_mem (h : List HostEvent) : (s.setHost h).mem = s.mem := rfl
@[simp] theorem setHost_pos (h : List HostEvent) : (s.setHost h).pos = s.pos := rfl
@[simp] theorem setHost_record (h : List HostEvent) : (s.setHost h).record = s.record := rfl
@[simp] theorem setHost_found (h : List HostEvent) : (s.setHost h).found = s.found := rfl
@[simp] theorem setHost_foff (h : List HostEvent) : (s.setHost h).foff = s.foff := rfl
@[simp] theorem setHost_rdata (h : List HostEvent) : (s.setHost h).rdata = s.rdata := rfl
@[simp] theorem setHost_ill (h : List HostEvent) : (s.setHost h).ill = s.ill := rfl
@[simp] theorem setHost_illc (h : List HostEvent) : (s.setHost h).illc = s.illc := rfl
@[simp] theorem setHost_phase (h : List HostEvent) : (s.setHost h).phase = s.phase := rfl
@[simp] theorem setHost_timer (h : List HostEvent) : (s.setHost h).timer = s.timer := rfl
@[simp] theorem setHost_host (h : List HostEvent) : (s.setHost h).host = h := rfl
@[simp] theorem setHost_pins (h : List HostEvent) : (s.setHost h).pins = s.pins := rfl
@[simp] theorem setHost_source (h : List HostEvent) : (s.setHost h).source = s.source := rfl
@[simp] theorem setHost_pub (h : List HostEvent) : (s.setHost h).pub = s.pub := rfl
@[simp] theorem setHost_draws (h : List HostEvent) : (s.setHost h).draws = s.draws := rfl

/-! ### setPins -/

@[simp] theorem setPins_cfg (p : List PinEvent) : (s.setPins p).cfg = s.cfg := rfl
@[simp] theorem setPins_strap (p : List PinEvent) : (s.setPins p).strap = s.strap := rfl
@[simp] theorem setPins_mem (p : List PinEvent) : (s.setPins p).mem = s.mem := rfl
@[simp] theorem setPins_pos (p : List PinEvent) : (s.setPins p).pos = s.pos := rfl
@[simp] theorem setPins_record (p : List PinEvent) : (s.setPins p).record = s.record := rfl
@[simp] theorem setPins_found (p : List PinEvent) : (s.setPins p).found = s.found := rfl
@[simp] theorem setPins_foff (p : List PinEvent) : (s.setPins p).foff = s.foff := rfl
@[simp] theorem setPins_rdata (p : List PinEvent) : (s.setPins p).rdata = s.rdata := rfl
@[simp] theorem setPins_ill (p : List PinEvent) : (s.setPins p).ill = s.ill := rfl
@[simp] theorem setPins_illc (p : List PinEvent) : (s.setPins p).illc = s.illc := rfl
@[simp] theorem setPins_phase (p : List PinEvent) : (s.setPins p).phase = s.phase := rfl
@[simp] theorem setPins_timer (p : List PinEvent) : (s.setPins p).timer = s.timer := rfl
@[simp] theorem setPins_host (p : List PinEvent) : (s.setPins p).host = s.host := rfl
@[simp] theorem setPins_pins (p : List PinEvent) : (s.setPins p).pins = p := rfl
@[simp] theorem setPins_source (p : List PinEvent) : (s.setPins p).source = s.source := rfl
@[simp] theorem setPins_pub (p : List PinEvent) : (s.setPins p).pub = s.pub := rfl
@[simp] theorem setPins_draws (p : List PinEvent) : (s.setPins p).draws = s.draws := rfl

/-! ### pastPins -/

@[simp] theorem pastPins_cfg : s.pastPins.cfg = s.cfg := rfl
@[simp] theorem pastPins_strap : s.pastPins.strap = s.strap := rfl
@[simp] theorem pastPins_mem : s.pastPins.mem = s.mem := rfl
@[simp] theorem pastPins_pos : s.pastPins.pos = s.pos := rfl
@[simp] theorem pastPins_record : s.pastPins.record = s.record := rfl
@[simp] theorem pastPins_found : s.pastPins.found = s.found := rfl
@[simp] theorem pastPins_foff : s.pastPins.foff = s.foff := rfl
@[simp] theorem pastPins_rdata : s.pastPins.rdata = s.rdata := rfl
@[simp] theorem pastPins_ill : s.pastPins.ill = s.ill := rfl
@[simp] theorem pastPins_illc : s.pastPins.illc = s.illc := rfl
@[simp] theorem pastPins_phase : s.pastPins.phase = s.phase := rfl
@[simp] theorem pastPins_timer : s.pastPins.timer = s.timer := rfl
@[simp] theorem pastPins_host : s.pastPins.host = s.host := rfl
@[simp] theorem pastPins_pins : s.pastPins.pins = s.pins.tail := rfl
@[simp] theorem pastPins_source : s.pastPins.source = s.source := rfl
@[simp] theorem pastPins_pub : s.pastPins.pub = s.pub := rfl
@[simp] theorem pastPins_draws : s.pastPins.draws = s.draws := rfl

/-! ### setStrap -/

@[simp] theorem setStrap_cfg (m : Mode) : (s.setStrap m).cfg = s.cfg := rfl
@[simp] theorem setStrap_strap (m : Mode) : (s.setStrap m).strap = m := rfl
@[simp] theorem setStrap_mem (m : Mode) : (s.setStrap m).mem = s.mem := rfl
@[simp] theorem setStrap_pos (m : Mode) : (s.setStrap m).pos = s.pos := rfl
@[simp] theorem setStrap_record (m : Mode) : (s.setStrap m).record = s.record := rfl
@[simp] theorem setStrap_found (m : Mode) : (s.setStrap m).found = s.found := rfl
@[simp] theorem setStrap_foff (m : Mode) : (s.setStrap m).foff = s.foff := rfl
@[simp] theorem setStrap_rdata (m : Mode) : (s.setStrap m).rdata = s.rdata := rfl
@[simp] theorem setStrap_ill (m : Mode) : (s.setStrap m).ill = s.ill := rfl
@[simp] theorem setStrap_illc (m : Mode) : (s.setStrap m).illc = s.illc := rfl
@[simp] theorem setStrap_phase (m : Mode) : (s.setStrap m).phase = s.phase := rfl
@[simp] theorem setStrap_timer (m : Mode) : (s.setStrap m).timer = s.timer := rfl
@[simp] theorem setStrap_host (m : Mode) : (s.setStrap m).host = s.host := rfl
@[simp] theorem setStrap_pins (m : Mode) : (s.setStrap m).pins = s.pins := rfl
@[simp] theorem setStrap_source (m : Mode) : (s.setStrap m).source = s.source := rfl
@[simp] theorem setStrap_pub (m : Mode) : (s.setStrap m).pub = s.pub := rfl
@[simp] theorem setStrap_draws (m : Mode) : (s.setStrap m).draws = s.draws := rfl

/-! ### setSource -/

@[simp] theorem setSource_cfg (a : List SourceAnswer) : (s.setSource a).cfg = s.cfg := rfl
@[simp] theorem setSource_strap (a : List SourceAnswer) : (s.setSource a).strap = s.strap := rfl
@[simp] theorem setSource_mem (a : List SourceAnswer) : (s.setSource a).mem = s.mem := rfl
@[simp] theorem setSource_pos (a : List SourceAnswer) : (s.setSource a).pos = s.pos := rfl
@[simp] theorem setSource_record (a : List SourceAnswer) : (s.setSource a).record = s.record := rfl
@[simp] theorem setSource_found (a : List SourceAnswer) : (s.setSource a).found = s.found := rfl
@[simp] theorem setSource_foff (a : List SourceAnswer) : (s.setSource a).foff = s.foff := rfl
@[simp] theorem setSource_rdata (a : List SourceAnswer) : (s.setSource a).rdata = s.rdata := rfl
@[simp] theorem setSource_ill (a : List SourceAnswer) : (s.setSource a).ill = s.ill := rfl
@[simp] theorem setSource_illc (a : List SourceAnswer) : (s.setSource a).illc = s.illc := rfl
@[simp] theorem setSource_phase (a : List SourceAnswer) : (s.setSource a).phase = s.phase := rfl
@[simp] theorem setSource_timer (a : List SourceAnswer) : (s.setSource a).timer = s.timer := rfl
@[simp] theorem setSource_host (a : List SourceAnswer) : (s.setSource a).host = s.host := rfl
@[simp] theorem setSource_pins (a : List SourceAnswer) : (s.setSource a).pins = s.pins := rfl
@[simp] theorem setSource_source (a : List SourceAnswer) : (s.setSource a).source = a := rfl
@[simp] theorem setSource_pub (a : List SourceAnswer) : (s.setSource a).pub = s.pub := rfl
@[simp] theorem setSource_draws (a : List SourceAnswer) : (s.setSource a).draws = s.draws := rfl

/-! ### draw -/

@[simp] theorem draw_cfg : s.draw.cfg = s.cfg := rfl
@[simp] theorem draw_strap : s.draw.strap = s.strap := rfl
@[simp] theorem draw_mem : s.draw.mem = s.mem := rfl
@[simp] theorem draw_pos : s.draw.pos = s.pos := rfl
@[simp] theorem draw_record : s.draw.record = s.record := rfl
@[simp] theorem draw_found : s.draw.found = s.found := rfl
@[simp] theorem draw_foff : s.draw.foff = s.foff := rfl
@[simp] theorem draw_rdata : s.draw.rdata = s.rdata := rfl
@[simp] theorem draw_ill : s.draw.ill = s.ill := rfl
@[simp] theorem draw_illc : s.draw.illc = s.illc := rfl
@[simp] theorem draw_phase : s.draw.phase = s.phase := rfl
@[simp] theorem draw_timer : s.draw.timer = s.timer := rfl
@[simp] theorem draw_host : s.draw.host = s.host := rfl
@[simp] theorem draw_pins : s.draw.pins = s.pins := rfl
@[simp] theorem draw_source : s.draw.source = s.source := rfl
@[simp] theorem draw_pub : s.draw.pub = s.pub := rfl
@[simp] theorem draw_draws : s.draw.draws = s.draws + 1 := rfl

/-! ### raiseIllegal -/

@[simp] theorem raiseIllegal_cfg (c : IllegalCause) : (s.raiseIllegal c).cfg = s.cfg := rfl
@[simp] theorem raiseIllegal_strap (c : IllegalCause) : (s.raiseIllegal c).strap = s.strap := rfl
@[simp] theorem raiseIllegal_mem (c : IllegalCause) : (s.raiseIllegal c).mem = s.mem := rfl
@[simp] theorem raiseIllegal_pos (c : IllegalCause) : (s.raiseIllegal c).pos = s.pos := rfl
@[simp] theorem raiseIllegal_record (c : IllegalCause) : (s.raiseIllegal c).record = s.record := rfl
@[simp] theorem raiseIllegal_found (c : IllegalCause) : (s.raiseIllegal c).found = s.found := rfl
@[simp] theorem raiseIllegal_foff (c : IllegalCause) : (s.raiseIllegal c).foff = s.foff := rfl
@[simp] theorem raiseIllegal_rdata (c : IllegalCause) : (s.raiseIllegal c).rdata = s.rdata := rfl
@[simp] theorem raiseIllegal_ill (c : IllegalCause) : (s.raiseIllegal c).ill = true := rfl
@[simp] theorem raiseIllegal_illc (c : IllegalCause) : (s.raiseIllegal c).illc = if s.ill then s.illc else c.code := rfl
@[simp] theorem raiseIllegal_phase (c : IllegalCause) : (s.raiseIllegal c).phase = s.phase := rfl
@[simp] theorem raiseIllegal_timer (c : IllegalCause) : (s.raiseIllegal c).timer = s.timer := rfl
@[simp] theorem raiseIllegal_host (c : IllegalCause) : (s.raiseIllegal c).host = s.host := rfl
@[simp] theorem raiseIllegal_pins (c : IllegalCause) : (s.raiseIllegal c).pins = s.pins := rfl
@[simp] theorem raiseIllegal_source (c : IllegalCause) : (s.raiseIllegal c).source = s.source := rfl
@[simp] theorem raiseIllegal_pub (c : IllegalCause) : (s.raiseIllegal c).pub = s.pub := rfl
@[simp] theorem raiseIllegal_draws (c : IllegalCause) : (s.raiseIllegal c).draws = s.draws := rfl

/-! ### setScan -/

@[simp] theorem setScan_cfg (r : Option Nat) : (s.setScan r).cfg = s.cfg := by cases r <;> rfl
@[simp] theorem setScan_strap (r : Option Nat) : (s.setScan r).strap = s.strap := by cases r <;> rfl
@[simp] theorem setScan_mem (r : Option Nat) : (s.setScan r).mem = s.mem := by cases r <;> rfl
@[simp] theorem setScan_pos (r : Option Nat) : (s.setScan r).pos = s.pos := by cases r <;> rfl
@[simp] theorem setScan_record (r : Option Nat) : (s.setScan r).record = s.record := by cases r <;> rfl
@[simp] theorem setScan_found (r : Option Nat) : (s.setScan r).found = r.isSome := by cases r <;> rfl
@[simp] theorem setScan_foff (r : Option Nat) : (s.setScan r).foff = (match r with | some o => BitVec.ofNat 12 o | none => 0) := by cases r <;> rfl
@[simp] theorem setScan_rdata (r : Option Nat) : (s.setScan r).rdata = s.rdata := by cases r <;> rfl
@[simp] theorem setScan_ill (r : Option Nat) : (s.setScan r).ill = s.ill := by cases r <;> rfl
@[simp] theorem setScan_illc (r : Option Nat) : (s.setScan r).illc = s.illc := by cases r <;> rfl
@[simp] theorem setScan_phase (r : Option Nat) : (s.setScan r).phase = s.phase := by cases r <;> rfl
@[simp] theorem setScan_timer (r : Option Nat) : (s.setScan r).timer = s.timer := by cases r <;> rfl
@[simp] theorem setScan_host (r : Option Nat) : (s.setScan r).host = s.host := by cases r <;> rfl
@[simp] theorem setScan_pins (r : Option Nat) : (s.setScan r).pins = s.pins := by cases r <;> rfl
@[simp] theorem setScan_source (r : Option Nat) : (s.setScan r).source = s.source := by cases r <;> rfl
@[simp] theorem setScan_pub (r : Option Nat) : (s.setScan r).pub = s.pub := by cases r <;> rfl
@[simp] theorem setScan_draws (r : Option Nat) : (s.setScan r).draws = s.draws := by cases r <;> rfl

/-! ### resetState -/

@[simp] theorem resetState_cfg : s.resetState.cfg = { s.cfg with mode := s.strap } := rfl
@[simp] theorem resetState_strap : s.resetState.strap = s.strap := rfl
@[simp] theorem resetState_mem : s.resetState.mem = Memory.resetRing s.cfg s.draws := rfl
@[simp] theorem resetState_pos : s.resetState.pos = 0 := rfl
@[simp] theorem resetState_record : s.resetState.record = Record.zero := rfl
@[simp] theorem resetState_found : s.resetState.found = false := rfl
@[simp] theorem resetState_foff : s.resetState.foff = 0 := rfl
@[simp] theorem resetState_rdata : s.resetState.rdata = 0 := rfl
@[simp] theorem resetState_ill : s.resetState.ill = false := rfl
@[simp] theorem resetState_illc : s.resetState.illc = 0 := rfl
@[simp] theorem resetState_phase : s.resetState.phase = .idle := rfl
@[simp] theorem resetState_timer : s.resetState.timer = .expired := rfl
@[simp] theorem resetState_host : s.resetState.host = s.host := rfl
@[simp] theorem resetState_pins : s.resetState.pins = s.pins := rfl
@[simp] theorem resetState_source : s.resetState.source = s.source := rfl
@[simp] theorem resetState_pub : s.resetState.pub = s.pub := rfl
@[simp] theorem resetState_draws : s.resetState.draws = s.draws + 1 := rfl

end Sys2Proof.Machine.State
end

