-- ==== Sys2Proof/Laws/Ops.lean ====
section
/-! SUPPORT. What the shared operations do, said once: one byte written, the append loop, windows, the Source, the
illegal command, and the passing of time. -/

namespace Sys2Proof.Machine.State

variable {s : State}

/-! ### Values of the offsets -/

theorem toNat_ofNat12 {x n : Nat} (hx : x < n) (hn : n ≤ 4096) : (BitVec.ofNat 12 x).toNat = x := by
  simp only [BitVec.toNat_ofNat]
  omega

/-- The cursor holds the value it is set to, modulo N (00_scope.md R12). -/
theorem setPos_toNat (h : s.cfg.wf) (p : Nat) : (s.setPos p).pos.toNat = p % s.cfg.n :=
  toNat_ofNat12 (Nat.mod_lt _ (by have := h.1; omega)) h.2

/-! ### One byte -/

theorem byteAt_mod (o : Nat) : s.byteAt (o % s.cfg.n) = s.byteAt o := by
  simp [byteAt]

theorem byteAt_congr {a b : Nat} (h : a % s.cfg.n = b % s.cfg.n) : s.byteAt a = s.byteAt b := by
  simp [byteAt, h]

/-- A read depends on the ring and N alone. -/
theorem byteAt_eq_of {t : State} (hm : t.mem = s.mem) (hn : t.cfg.n = s.cfg.n) (a : Nat) :
    t.byteAt a = s.byteAt a := by
  simp [byteAt, hm, hn]

/-- The byte at an offset after a write (20_memory.md R37). -/
theorem byteAt_writeByte (hm : s.mem.wf) (o : Nat) (b : Byte) (a : Nat) :
    (s.writeByte o b).byteAt a = if a % s.cfg.n = o % s.cfg.n then b else s.byteAt a := by
  simp [byteAt, Memory.read_write hm]

/-! ### The append loop (40_accumulator.md R57, R58) -/

@[simp] theorem appendBytes_nil : s.appendBytes [] = s := rfl

@[simp] theorem appendBytes_cons (b : Byte) (bs : List Byte) :
    s.appendBytes (b :: bs) = (s.appendByte b).appendBytes bs := rfl

theorem appendBytes_append (as bs : List Byte) :
    s.appendBytes (as ++ bs) = (s.appendBytes as).appendBytes bs := by
  simp [appendBytes]

/-- An append writes the ring and the cursor, and nothing else. -/
theorem appendByte_eq (b : Byte) :
    s.appendByte b = { s with mem := (s.appendByte b).mem, pos := (s.appendByte b).pos } := rfl

theorem appendBytes_eq (bs : List Byte) :
    s.appendBytes bs = { s with mem := (s.appendBytes bs).mem, pos := (s.appendBytes bs).pos } := by
  induction bs generalizing s with
  | nil => rfl
  | cons b bs ih => exact ih (s := s.appendByte b)

@[simp] theorem appendBytes_cfg (bs : List Byte) : (s.appendBytes bs).cfg = s.cfg := by rw [appendBytes_eq]
@[simp] theorem appendBytes_strap (bs : List Byte) : (s.appendBytes bs).strap = s.strap := by rw [appendBytes_eq]
@[simp] theorem appendBytes_record (bs : List Byte) : (s.appendBytes bs).record = s.record := by rw [appendBytes_eq]
@[simp] theorem appendBytes_found (bs : List Byte) : (s.appendBytes bs).found = s.found := by rw [appendBytes_eq]
@[simp] theorem appendBytes_foff (bs : List Byte) : (s.appendBytes bs).foff = s.foff := by rw [appendBytes_eq]
@[simp] theorem appendBytes_rdata (bs : List Byte) : (s.appendBytes bs).rdata = s.rdata := by rw [appendBytes_eq]
@[simp] theorem appendBytes_ill (bs : List Byte) : (s.appendBytes bs).ill = s.ill := by rw [appendBytes_eq]
@[simp] theorem appendBytes_illc (bs : List Byte) : (s.appendBytes bs).illc = s.illc := by rw [appendBytes_eq]
@[simp] theorem appendBytes_phase (bs : List Byte) : (s.appendBytes bs).phase = s.phase := by rw [appendBytes_eq]
@[simp] theorem appendBytes_timer (bs : List Byte) : (s.appendBytes bs).timer = s.timer := by rw [appendBytes_eq]
@[simp] theorem appendBytes_host (bs : List Byte) : (s.appendBytes bs).host = s.host := by rw [appendBytes_eq]
@[simp] theorem appendBytes_pins (bs : List Byte) : (s.appendBytes bs).pins = s.pins := by rw [appendBytes_eq]
@[simp] theorem appendBytes_source (bs : List Byte) : (s.appendBytes bs).source = s.source := by rw [appendBytes_eq]
@[simp] theorem appendBytes_pub (bs : List Byte) : (s.appendBytes bs).pub = s.pub := by rw [appendBytes_eq]
@[simp] theorem appendBytes_draws (bs : List Byte) : (s.appendBytes bs).draws = s.draws := by rw [appendBytes_eq]

/-- The cursor moves by the number of bytes, modulo N. -/
theorem appendBytes_pos (hc : s.cfg.wf) (hp : s.pos.toNat < s.cfg.n) (bs : List Byte) :
    (s.appendBytes bs).pos.toNat = (s.pos.toNat + bs.length) % s.cfg.n := by
  induction bs generalizing s with
  | nil => simp [Nat.mod_eq_of_lt hp]
  | cons b bs ih =>
    have hpos : (s.appendByte b).pos.toNat = (s.pos.toNat + 1) % s.cfg.n := setPos_toNat (s := s.writeByte _ b) hc _
    have hlt : (s.appendByte b).pos.toNat < s.cfg.n := hpos ▸ Nat.mod_lt _ (by have := hc.1; omega)
    rw [appendBytes_cons, ih (s := s.appendByte b) hc hlt, hpos]
    show ((s.pos.toNat + 1) % s.cfg.n + bs.length) % s.cfg.n = _
    rw [Nat.mod_add_mod, List.length_cons]
    congr 1
    omega

theorem appendBytes_mem_wf (hm : s.mem.wf) (bs : List Byte) : (s.appendBytes bs).mem.wf := by
  induction bs generalizing s with
  | nil => exact hm
  | cons b bs ih => exact ih (s := s.appendByte b) (Memory.write_wf hm _ _)

theorem appendBytes_mem_lt (hc : s.cfg.wf) (hm : ∀ c ∈ s.mem, c.1 < s.cfg.n) (bs : List Byte) :
    ∀ c ∈ (s.appendBytes bs).mem, c.1 < s.cfg.n := by
  induction bs generalizing s with
  | nil => exact hm
  | cons b bs ih =>
    exact ih (s := s.appendByte b) hc (Memory.write_lt hm (Nat.mod_lt _ (by have := hc.1; omega)))

theorem byteAt_appendByte (hm : s.mem.wf) (b : Byte) (a : Nat) :
    (s.appendByte b).byteAt a = if a % s.cfg.n = s.pos.toNat % s.cfg.n then b else s.byteAt a :=
  byteAt_writeByte hm _ b a

/-- An offset that no appended byte lands on keeps its byte. -/
theorem byteAt_appendBytes_of_not (hc : s.cfg.wf) (hm : s.mem.wf) (hp : s.pos.toNat < s.cfg.n) (bs : List Byte)
    (a : Nat) (h : ∀ j < bs.length, (s.pos.toNat + j) % s.cfg.n ≠ a % s.cfg.n) :
    (s.appendBytes bs).byteAt a = s.byteAt a := by
  induction bs generalizing s with
  | nil => rfl
  | cons b bs ih =>
    have hpos : (s.appendByte b).pos.toNat = (s.pos.toNat + 1) % s.cfg.n := setPos_toNat (s := s.writeByte _ b) hc _
    have hlt : (s.appendByte b).pos.toNat < s.cfg.n := hpos ▸ Nat.mod_lt _ (by have := hc.1; omega)
    rw [appendBytes_cons, ih (s := s.appendByte b) hc (Memory.write_wf hm _ _) hlt ?_, byteAt_appendByte hm]
    · have h0 := h 0 (by simp)
      rw [Nat.add_zero] at h0
      rw [if_neg (fun e => h0 e.symm)]
    · intro j hj
      have hj' := h (j + 1) (by simpa using hj)
      rw [hpos]
      show ((s.pos.toNat + 1) % s.cfg.n + j) % s.cfg.n ≠ a % s.cfg.n
      rw [Nat.mod_add_mod]
      rwa [show s.pos.toNat + 1 + j = s.pos.toNat + (j + 1) by omega]

/-- The last appended byte that lands on an offset stays there. -/
theorem byteAt_appendBytes_last (hc : s.cfg.wf) (hm : s.mem.wf) (hp : s.pos.toNat < s.cfg.n) (bs : List Byte)
    (j : Nat) (hj : j < bs.length)
    (h : ∀ j' < bs.length, j < j' → (s.pos.toNat + j') % s.cfg.n ≠ (s.pos.toNat + j) % s.cfg.n) :
    (s.appendBytes bs).byteAt (s.pos.toNat + j) = bs[j] := by
  have hsplit : bs = bs.take j ++ bs[j] :: bs.drop (j + 1) := by simp
  have hlen : (bs.take j).length = j := by simp; omega
  conv_lhs => rw [hsplit, appendBytes_append, appendBytes_cons]
  set u := s.appendBytes (bs.take j) with hu
  have hucfg : u.cfg = s.cfg := appendBytes_cfg _
  have huc : u.cfg.wf := by rw [hucfg]; exact hc
  have hum : u.mem.wf := appendBytes_mem_wf hm _
  have hup : u.pos.toNat = (s.pos.toNat + j) % s.cfg.n := by rw [hu, appendBytes_pos hc hp, hlen]
  have hult : u.pos.toNat < u.cfg.n := by
    rw [hup, hucfg]; exact Nat.mod_lt _ (by have := hc.1; omega)
  have hvp : (u.appendByte bs[j]).pos.toNat = (u.pos.toNat + 1) % u.cfg.n := setPos_toNat (s := u.writeByte _ _) huc _
  rw [byteAt_appendBytes_of_not (s := u.appendByte bs[j]) huc (Memory.write_wf hum _ _)
    (hvp ▸ Nat.mod_lt _ (by have := huc.1; omega)), byteAt_appendByte hum, if_pos]
  · rw [hup, hucfg, Nat.mod_mod]
  · intro i hi
    have hi' : j + 1 + i < bs.length := by simp at hi; omega
    have := h (j + 1 + i) hi' (by omega)
    rw [hvp, hup, hucfg]
    show (((s.pos.toNat + j) % s.cfg.n + 1) % s.cfg.n + i) % u.cfg.n ≠ (s.pos.toNat + j) % u.cfg.n
    rw [hucfg, Nat.mod_add_mod, Nat.add_assoc, Nat.mod_add_mod]
    rwa [show s.pos.toNat + j + (1 + i) = s.pos.toNat + (j + 1 + i) by omega]

/-! ### Windows (40_accumulator.md R56) -/

@[simp] theorem readWindow_length (o k : Nat) : (s.readWindow o k).length = k := by simp [readWindow]

theorem readWindow_get (o k i : Nat) (h : i < k) : (s.readWindow o k)[i]? = some (s.byteAt (o + i)) := by
  simp [readWindow, h]

theorem readWindow_getD (o k i : Nat) (h : i < k) : (s.readWindow o k).getD i 0 = s.byteAt (o + i) := by
  simp [readWindow, h]

/-- A window depends on the ring and N alone. -/
theorem readWindow_eq_of {t : State} (hm : t.mem = s.mem) (hn : t.cfg.n = s.cfg.n) (o k : Nat) :
    t.readWindow o k = s.readWindow o k := by
  simp [readWindow, byteAt_eq_of hm hn]

/-! ### The Source (43_framing_fsm.md R80, R81) -/

/-- No batch is longer than MAX_BATCH. -/
theorem batch_length (s : State) : s.batch.length ≤ s.cfg.n := by
  unfold batch
  split
  · simp [Config.maxBatch]
  · simp
  · split <;> simp [Config.maxBatch]

/-- A read of the Source changes the Source's answers and the counter of free values alone. -/
theorem afterRead_eq (s : State) :
    s.afterRead = { s with source := s.afterRead.source, draws := s.afterRead.draws } := by
  unfold afterRead
  split <;> rfl

@[simp] theorem afterRead_cfg (s : State) : s.afterRead.cfg = s.cfg := by rw [afterRead_eq]
@[simp] theorem afterRead_strap (s : State) : s.afterRead.strap = s.strap := by rw [afterRead_eq]
@[simp] theorem afterRead_mem (s : State) : s.afterRead.mem = s.mem := by rw [afterRead_eq]
@[simp] theorem afterRead_pos (s : State) : s.afterRead.pos = s.pos := by rw [afterRead_eq]
@[simp] theorem afterRead_record (s : State) : s.afterRead.record = s.record := by rw [afterRead_eq]
@[simp] theorem afterRead_found (s : State) : s.afterRead.found = s.found := by rw [afterRead_eq]
@[simp] theorem afterRead_foff (s : State) : s.afterRead.foff = s.foff := by rw [afterRead_eq]
@[simp] theorem afterRead_rdata (s : State) : s.afterRead.rdata = s.rdata := by rw [afterRead_eq]
@[simp] theorem afterRead_ill (s : State) : s.afterRead.ill = s.ill := by rw [afterRead_eq]
@[simp] theorem afterRead_illc (s : State) : s.afterRead.illc = s.illc := by rw [afterRead_eq]
@[simp] theorem afterRead_phase (s : State) : s.afterRead.phase = s.phase := by rw [afterRead_eq]
@[simp] theorem afterRead_timer (s : State) : s.afterRead.timer = s.timer := by rw [afterRead_eq]
@[simp] theorem afterRead_host (s : State) : s.afterRead.host = s.host := by rw [afterRead_eq]
@[simp] theorem afterRead_pins (s : State) : s.afterRead.pins = s.pins := by rw [afterRead_eq]
@[simp] theorem afterRead_pub (s : State) : s.afterRead.pub = s.pub := by rw [afterRead_eq]

/-! ### Legality, and the passing of time -/

theorem runLegal_legal {i : Instr} {f : State → State} (h : i.illegalIn s.cfg.n s.cfg.mode = none) :
    s.runLegal i f = f s := by
  simp [runLegal, h]

theorem runLegal_illegal {i : Instr} {f : State → State} {c : IllegalCause}
    (h : i.illegalIn s.cfg.n s.cfg.mode = some c) : s.runLegal i f = s.raiseIllegal c := by
  simp [runLegal, h]

/-- A command's latency moves the cadence timer and the counter of free values alone, and nothing in CMD. -/
theorem passLatency_eq (s : State) :
    s.passLatency = { s with timer := s.passLatency.timer, draws := s.passLatency.draws } := by
  unfold passLatency elapse
  split <;> rfl

theorem elapse_eq (s : State) (k : Nat) : s.elapse k = { s with timer := (s.elapse k).timer } := by
  unfold elapse
  split <;> rfl

theorem idleOut_eq (s : State) : s.idleOut = { s with timer := s.idleOut.timer } := by
  unfold idleOut
  split <;> rfl

theorem passLatency_cmd (h : s.cfg.mode = .cmd) : s.passLatency = s := by simp [passLatency, h]

theorem passLatency_auto (h : s.cfg.mode = .auto) :
    s.passLatency = { s with timer := s.timer.advance (Config.latency s.draws), draws := s.draws + 1 } := by
  simp only [passLatency, elapse, h]
  rfl

theorem elapse_cmd (h : s.cfg.mode = .cmd) (k : Nat) : s.elapse k = s := by simp [elapse, h]

theorem idleOut_cmd (h : s.cfg.mode = .cmd) : s.idleOut = s := by simp [idleOut, h]

/-! ### The command port's readiness -/

/-- In CMD mode no cycle is ever due. -/
theorem cycleDue_cmd (h : s.cfg.mode = .cmd) : s.cycleDue = false := by simp [cycleDue, h]

/-- `rst` is 1 at the next rising edge exactly when a reset stands at the pins behind nothing but changes of the strap. -/
theorem rstAtNextEdge_iff (ps : List PinEvent) :
    rstAtNextEdge ps = true ↔ ∃ (ms : List Mode) (rest : List PinEvent), ps = ms.map PinEvent.strap ++ .reset :: rest := by
  induction ps with
  | nil => simp [rstAtNextEdge]
  | cons p ps ih =>
    cases p with
    | reset => exact iff_of_true rfl ⟨[], ps, rfl⟩
    | steady =>
      refine iff_of_false (by simp [rstAtNextEdge]) ?_
      rintro ⟨_ | ⟨m, ms⟩, rest, h⟩ <;> simp at h
    | strap m =>
      rw [rstAtNextEdge, ih]
      constructor
      · rintro ⟨ms, rest, rfl⟩
        exact ⟨m :: ms, rest, rfl⟩
      · rintro ⟨_ | ⟨m', ms⟩, rest, h⟩
        · simp at h
        · exact ⟨ms, rest, by simpa using (List.cons.inj h).2⟩

theorem rst_iff :
    s.rst = true ↔ ∃ (ms : List Mode) (rest : List PinEvent), s.pins = ms.map PinEvent.strap ++ .reset :: rest :=
  rstAtNextEdge_iff _

/-- Where the pins are quiet, `rst` is 0. -/
theorem rst_of_quiet (h : s.pinsQuiet = true) : s.rst = false := by
  unfold pinsQuiet at h
  unfold rst
  split at h <;> simp_all [rstAtNextEdge]

/-- The pins are quiet exactly when neither a reset nor a change of the strap stands first. -/
theorem pinsQuiet_iff :
    s.pinsQuiet = true ↔ (∀ rest, s.pins ≠ .reset :: rest) ∧ ∀ m rest, s.pins ≠ .strap m :: rest := by
  unfold pinsQuiet
  split <;> simp_all

/-- `cmd_ready` is 1 exactly when `rst` is 0, the block is between two operations, and no cycle is due. -/
theorem cmdReady_iff : s.cmdReady = true ↔ s.rst = false ∧ s.phase = .idle ∧ s.cycleDue = false := by
  simp [cmdReady, and_assoc]

end Sys2Proof.Machine.State
end

