-- ==== Sys2Proof/Laws/Detector.lean ====
section
/-! SUPPORT. The comparator and the scan, said once: when a window matches, and what a scan answers
(41_detector.md R63 to R66). -/

namespace Sys2Proof.Machine.State

variable {s : State}

/-- The four lanes of the comparator (41_detector.md R63). -/
theorem sigMatch_iff (s : State) (o : Nat) :
    s.sigMatch o = true ↔
      s.byteAt o = 0x7F ∧ s.byteAt (o + 1) = 0xF0 ∧ s.byteAt (o + 2) = 0x1C ∧ s.byteAt (o + 3) = 0xAF := by
  simp [sigMatch, readWindow, Config.sig, List.range_succ]

/-- The comparator depends on the ring and N alone. -/
theorem sigMatch_eq_of {t : State} (hm : t.mem = s.mem) (hn : t.cfg.n = s.cfg.n) : t.sigMatch = s.sigMatch := by
  funext o
  simp [sigMatch, readWindow_eq_of hm hn]

/-- A scan depends on the ring and N alone. -/
theorem findStart_eq_of {t : State} (hm : t.mem = s.mem) (hn : t.cfg.n = s.cfg.n) (p : Nat) :
    t.findStart p = s.findStart p := by
  simp [findStart, scanOffsets, Config.scanCount, hn, sigMatch_eq_of hm hn]

/-- A scan that finds: the match with the smallest scan index (41_detector.md R64, R65). -/
theorem findStart_eq_some {p o : Nat} :
    s.findStart p = some o ↔
      ∃ j < s.cfg.n - 3, o = (p + j) % s.cfg.n ∧ s.sigMatch o = true ∧
        ∀ j' < j, s.sigMatch ((p + j') % s.cfg.n) = false := by
  rw [findStart, List.find?_eq_some_iff_getElem]
  constructor
  · rintro ⟨hm, j, hj, rfl, hlt⟩
    simp only [scanOffsets, Config.scanCount, List.length_map, List.length_range] at hj
    refine ⟨j, hj, by simp [scanOffsets], hm, fun j' hj' => ?_⟩
    simpa [scanOffsets] using hlt j' hj'
  · rintro ⟨j, hj, rfl, hm, hlt⟩
    refine ⟨hm, j, by simpa [scanOffsets, Config.scanCount] using hj, by simp [scanOffsets], fun j' hj' => ?_⟩
    simpa [scanOffsets] using hlt j' hj'

/-- A scan that finds nothing (41_detector.md R64). -/
theorem findStart_eq_none {p : Nat} :
    s.findStart p = none ↔ ∀ j < s.cfg.n - 3, s.sigMatch ((p + j) % s.cfg.n) = false := by
  simp [findStart, scanOffsets, Config.scanCount]

theorem findStart_lt {p o : Nat} (hn : 0 < s.cfg.n) (h : s.findStart p = some o) : o < s.cfg.n := by
  obtain ⟨j, -, rfl, -⟩ := findStart_eq_some.mp h
  exact Nat.mod_lt _ hn

/-- The scan index of the `j`-th start offset is `j`. -/
theorem scanIndex_add {n p j : Nat} (hj : j < n) : scanIndex n p ((p + j) % n) = j := by
  have hn : 0 < n := by omega
  have hp := Nat.mod_lt p hn
  unfold scanIndex
  have h1 : (p + j) % n = (p % n + j) % n := by rw [Nat.mod_add_mod]
  rw [h1]
  generalize p % n = q at *
  by_cases h : q + j < n
  · rw [Nat.mod_eq_of_lt h, show q + j + n - q = j + n by omega, Nat.add_mod_right, Nat.mod_eq_of_lt hj]
  · have h2 : (q + j) % n = q + j - n := by rw [Nat.mod_eq_sub_mod (by omega), Nat.mod_eq_of_lt (by omega)]
    rw [h2, show q + j - n + n - q = j by omega, Nat.mod_eq_of_lt hj]

/-- Every offset of the ring is the start offset at its scan index. -/
theorem add_scanIndex {n p o : Nat} (ho : o < n) : (p + scanIndex n p o) % n = o := by
  have hn : 0 < n := by omega
  have hp := Nat.mod_lt p hn
  have h1 : (p + scanIndex n p o) % n = (p % n + scanIndex n p o) % n := by rw [Nat.mod_add_mod]
  rw [h1]
  unfold scanIndex
  generalize p % n = q at *
  by_cases h : q ≤ o
  · have h2 : (o + n - q) % n = o - q := by
      rw [show o + n - q = (o - q) + n by omega, Nat.add_mod_right, Nat.mod_eq_of_lt (by omega)]
    rw [h2, show q + (o - q) = o by omega, Nat.mod_eq_of_lt ho]
  · rw [Nat.mod_eq_of_lt (a := o + n - q) (by omega), show q + (o + n - q) = o + n by omega, Nat.add_mod_right,
      Nat.mod_eq_of_lt ho]

theorem scanIndex_lt {n p o : Nat} (hn : 0 < n) : scanIndex n p o < n := Nat.mod_lt _ hn

end Sys2Proof.Machine.State
end

