-- ==== Sys2Proof/Laws/Framing.lean ====
section
/-! SUPPORT. What the framing state machine does, said once: the scan of FRAME with its two outcomes, the ingest of CYCLE,
the autonomous cycle, and every command as its effect under the legality check. -/

namespace Sys2Proof.Machine

namespace State

variable {s : State}

/-- The decoder depends on the ring and N alone. -/
theorem decodeFrame_eq_of {t : State} (hm : t.mem = s.mem) (hn : t.cfg.n = s.cfg.n) (fs : Nat) :
    t.decodeFrame fs = s.decodeFrame fs := by
  simp [decodeFrame, readWindow_eq_of hm hn]

/-- The four fields of a record as ring bytes (42_decoder.md R71). -/
theorem decodeFrame_bytes (s : State) (fs : Nat) :
    s.decodeFrame fs =
      { count := be32 (s.byteAt (fs + 4)) (s.byteAt (fs + 5)) (s.byteAt (fs + 6)) (s.byteAt (fs + 7))
        x := be32 (s.byteAt (fs + 8)) (s.byteAt (fs + 9)) (s.byteAt (fs + 10)) (s.byteAt (fs + 11))
        y := be32 (s.byteAt (fs + 12)) (s.byteAt (fs + 13)) (s.byteAt (fs + 14)) (s.byteAt (fs + 15))
        z := be32 (s.byteAt (fs + 16)) (s.byteAt (fs + 17)) (s.byteAt (fs + 18)) (s.byteAt (fs + 19)) } := by
  have h (i : Nat) (hi : i < Config.frameLen) : (s.readWindow fs Config.frameLen).getD i 0 = s.byteAt (fs + i) :=
    readWindow_getD fs Config.frameLen i hi
  simp only [decodeFrame, fieldAt]
  rw [h 4 (by decide), h (4 + 1) (by decide), h (4 + 2) (by decide), h (4 + 3) (by decide), h 8 (by decide),
    h (8 + 1) (by decide), h (8 + 2) (by decide), h (8 + 3) (by decide), h 12 (by decide), h (12 + 1) (by decide),
    h (12 + 2) (by decide), h (12 + 3) (by decide), h 16 (by decide), h (16 + 1) (by decide), h (16 + 2) (by decide),
    h (16 + 3) (by decide)]

/-- FIND's scan: the two result registers, and the phase back at IDLE. -/
theorem scanReport_eq (s : State) :
    s.scanReport = (s.setScan (s.findStart s.pos.toNat)).setPhase .idle := by
  unfold scanReport
  simp only [setPhase_pos, findStart_eq_of (s := s) (setPhase_mem s .scan) rfl]
  cases s.findStart s.pos.toNat <;> rfl

/-- FRAME on a match: the whole next state. -/
theorem frameOnce_some {fs : Nat} (h : s.findStart s.pos.toNat = some fs) :
    s.frameOnce =
      { s with
        found := true
        foff := BitVec.ofNat 12 fs
        record := s.decodeFrame fs
        pub := s.pub ++ [s.decodeFrame fs]
        pos := BitVec.ofNat 12 ((fs + Config.frameLen) % s.cfg.n)
        phase := .idle } := by
  have h' : (s.setPhase .scan).findStart (s.setPhase .scan).pos.toNat = some fs := h
  unfold frameOnce
  simp only [h']
  rfl

/-- FRAME without a match: the whole next state. -/
theorem frameOnce_none (h : s.findStart s.pos.toNat = none) :
    s.frameOnce = { s with found := false, foff := 0, phase := .idle } := by
  have h' : (s.setPhase .scan).findStart (s.setPhase .scan).pos.toNat = none := h
  unfold frameOnce
  simp only [h']
  rfl

/-- What FRAME leaves, whatever the scan answers. -/
theorem frameOnce_eq (s : State) :
    s.frameOnce =
      { s with
        found := s.frameOnce.found
        foff := s.frameOnce.foff
        record := s.frameOnce.record
        pub := s.frameOnce.pub
        pos := s.frameOnce.pos
        phase := .idle } := by
  cases h : s.findStart s.pos.toNat with
  | none => rw [frameOnce_none h]
  | some fs => rw [frameOnce_some h]

@[simp] theorem frameOnce_cfg (s : State) : s.frameOnce.cfg = s.cfg := by rw [frameOnce_eq]
@[simp] theorem frameOnce_strap (s : State) : s.frameOnce.strap = s.strap := by rw [frameOnce_eq]
@[simp] theorem frameOnce_mem (s : State) : s.frameOnce.mem = s.mem := by rw [frameOnce_eq]
@[simp] theorem frameOnce_rdata (s : State) : s.frameOnce.rdata = s.rdata := by rw [frameOnce_eq]
@[simp] theorem frameOnce_ill (s : State) : s.frameOnce.ill = s.ill := by rw [frameOnce_eq]
@[simp] theorem frameOnce_illc (s : State) : s.frameOnce.illc = s.illc := by rw [frameOnce_eq]
@[simp] theorem frameOnce_phase (s : State) : s.frameOnce.phase = .idle := by rw [frameOnce_eq]
@[simp] theorem frameOnce_timer (s : State) : s.frameOnce.timer = s.timer := by rw [frameOnce_eq]
@[simp] theorem frameOnce_host (s : State) : s.frameOnce.host = s.host := by rw [frameOnce_eq]
@[simp] theorem frameOnce_pins (s : State) : s.frameOnce.pins = s.pins := by rw [frameOnce_eq]
@[simp] theorem frameOnce_source (s : State) : s.frameOnce.source = s.source := by rw [frameOnce_eq]
@[simp] theorem frameOnce_draws (s : State) : s.frameOnce.draws = s.draws := by rw [frameOnce_eq]

/-- Step 1 of a cycle: read, then append (43_framing_fsm.md R79). -/
theorem ingest_eq (s : State) : s.ingest = (s.afterRead.appendBytes s.batch).setPhase .scan := by
  have hb : (s.setPhase .ingest).batch = s.batch := rfl
  have ha : (s.setPhase .ingest).afterRead = (s.afterRead).setPhase .ingest := by
    unfold afterRead
    simp only [setPhase_source]
    split <;> rfl
  have happ (u : State) (bs : List Byte) :
      (u.setPhase .ingest).appendBytes bs = (u.appendBytes bs).setPhase .ingest := by
    induction bs generalizing u with
    | nil => rfl
    | cons b bs ih => exact ih (u.appendByte b)
  unfold ingest
  simp only [hb, ha, happ]
  rfl

@[simp] theorem ingest_cfg (s : State) : s.ingest.cfg = s.cfg := by simp [ingest_eq]
@[simp] theorem ingest_strap (s : State) : s.ingest.strap = s.strap := by simp [ingest_eq]
@[simp] theorem ingest_record (s : State) : s.ingest.record = s.record := by simp [ingest_eq]
@[simp] theorem ingest_found (s : State) : s.ingest.found = s.found := by simp [ingest_eq]
@[simp] theorem ingest_foff (s : State) : s.ingest.foff = s.foff := by simp [ingest_eq]
@[simp] theorem ingest_rdata (s : State) : s.ingest.rdata = s.rdata := by simp [ingest_eq]
@[simp] theorem ingest_ill (s : State) : s.ingest.ill = s.ill := by simp [ingest_eq]
@[simp] theorem ingest_illc (s : State) : s.ingest.illc = s.illc := by simp [ingest_eq]
@[simp] theorem ingest_phase (s : State) : s.ingest.phase = .scan := by simp [ingest_eq]
@[simp] theorem ingest_timer (s : State) : s.ingest.timer = s.timer := by simp [ingest_eq]
@[simp] theorem ingest_host (s : State) : s.ingest.host = s.host := by simp [ingest_eq]
@[simp] theorem ingest_pins (s : State) : s.ingest.pins = s.pins := by simp [ingest_eq]
@[simp] theorem ingest_pub (s : State) : s.ingest.pub = s.pub := by simp [ingest_eq]
@[simp] theorem ingest_source (s : State) : s.ingest.source = s.afterRead.source := by simp [ingest_eq]
@[simp] theorem ingest_draws (s : State) : s.ingest.draws = s.afterRead.draws := by simp [ingest_eq]

/-- An autonomous cycle is a cycle, and the cadence timer at its elapsed time (43_framing_fsm.md R86, R88). -/
theorem autoCycle_eq (s : State) :
    s.autoCycle =
      { s.cycleOnce with
        timer := CadenceTimer.atTicks (Config.latency s.cycleOnce.draws)
        draws := s.cycleOnce.draws + 1 } := rfl

end State

/-! ### The commands -/

/-- What a command does where it is legal. -/
def effect : Instr → State → State
  | .nop, s => s
  | .append b, s => s.appendBytes [b]
  | .peek o, s => s.setRdata ((s.readWindow o.toNat 1).getD 0 0)
  | .find, s => s.scanReport
  | .decode o, s => s.setRecord (s.decodeFrame o.toNat)
  | .frame, s => s.frameOnce
  | .cycle, s => s.cycleOnce

/-- Every command answers a next state: its effect, or the illegal-command exception. -/
theorem exec_eq (i : Instr) (s : State) : exec i s = .next (s.runLegal i (effect i)) := by
  cases i <;> rfl

theorem exec_legal {i : Instr} {s : State} (h : i.illegalIn s.cfg.n s.cfg.mode = none) :
    exec i s = .next (effect i s) := by
  rw [exec_eq, State.runLegal_legal h]

theorem exec_illegal {i : Instr} {s : State} {c : IllegalCause} (h : i.illegalIn s.cfg.n s.cfg.mode = some c) :
    exec i s = .next (s.raiseIllegal c) := by
  rw [exec_eq, State.runLegal_illegal h]

/-- What a command can answer. -/
theorem exec_cases {i : Instr} {s t : State} (h : exec i s = .next t) :
    (i.illegalIn s.cfg.n s.cfg.mode = none ∧ t = effect i s) ∨
      ∃ c, i.illegalIn s.cfg.n s.cfg.mode = some c ∧ t = s.raiseIllegal c := by
  cases hc : i.illegalIn s.cfg.n s.cfg.mode with
  | none =>
    rw [exec_legal hc] at h
    cases h
    exact .inl ⟨rfl, rfl⟩
  | some c =>
    rw [exec_illegal hc] at h
    cases h
    exact .inr ⟨c, rfl, rfl⟩

/-- The byte that PEEK reads. -/
theorem effect_peek (o : Offset) (s : State) : effect (.peek o) s = s.setRdata (s.byteAt o.toNat) := rfl

end Sys2Proof.Machine
end

