-- ==== Sys2Proof/Laws/PerInstr.lean ====
section
/-! SUPPORT. Statements made per instruction, about commands as syntax. The family EncodeSelectsRow: the word of a command
selects its own row of the opcode table, and carries the command's opcode (30_encoding.md R49). -/

namespace Sys2Proof.Laws.EncodeSelectsRow

/-- The mask of PEEK and DECODE clears the offset and keeps the opcode. -/
theorem pack_offset_mask (op : BitVec 4) (o : Offset) : packFields op o 0 0 &&& 0xF000FFFF = packFields op 0 0 0 := by
  have hm : (0xF000FFFF : Word) = packFields 15 0 0xFF 0xFF := by decide
  have ho : op &&& 15 = op := by
    revert op
    decide
  rw [hm, packFields_and, ho]
  simp

/-- The word of the command selects its row of the table of 30_encoding.md R49 and has its opcode in field OP. -/
def Statement (i : Instr) : Prop := i.row.selects (encode i) ∧ fieldOp (encode i) = i.opcode

theorem nop : Statement .nop := ⟨by unfold OpcodeRow.selects; decide, by decide⟩

theorem append (b : Byte) : Statement (.append b) := by
  refine ⟨?_, by simp [encode, Instr.opcode]⟩
  unfold OpcodeRow.selects
  revert b
  decide

theorem peek (o : Offset) : Statement (.peek o) := by
  refine ⟨?_, by simp [encode, Instr.opcode]⟩
  show packFields 2 o 0 0 &&& 0xF000FFFF = 0x20000000
  exact pack_offset_mask 2 o

theorem find : Statement .find := ⟨by unfold OpcodeRow.selects; decide, by decide⟩

theorem decode (o : Offset) : Statement (.decode o) := by
  refine ⟨?_, by simp [encode, Instr.opcode]⟩
  show packFields 4 o 0 0 &&& 0xF000FFFF = 0x40000000
  exact pack_offset_mask 4 o

theorem frame : Statement .frame := ⟨by unfold OpcodeRow.selects; decide, by decide⟩

theorem cycle : Statement .cycle := ⟨by unfold OpcodeRow.selects; decide, by decide⟩

end Sys2Proof.Laws.EncodeSelectsRow
end

