-- ==== Sys2Proof/Laws/Step.lean ====
section
/-! SUPPORT. What one step can do, said once: `step_cases` is the inversion that later proofs cite. -/

namespace Sys2Proof.Machine

/-- No command changes the configuration (00_scope.md R9). -/
@[simp] theorem effect_cfg (i : Instr) (s : State) : (effect i s).cfg = s.cfg := by
  cases i <;> simp [effect, State.scanReport_eq, State.cycleOnce, State.appendByte]

theorem acceptCommand_error {w : Word} {s : State} {c : IllegalCause}
    (h : decodeCmd s.cfg.n s.cfg.mode w = .error c) : acceptCommand w s = .next (s.raiseIllegal c) := by
  simp [acceptCommand, h]

theorem acceptCommand_ok {w : Word} {s : State} {i : Instr} (h : decodeCmd s.cfg.n s.cfg.mode w = .ok i) :
    acceptCommand w s = .next (effect i s) := by
  simp [acceptCommand, h, exec_legal (decodeCmd_ok_legal h)]

/-- Where the pins are quiet, the step is the next operation. -/
theorem step_quiet {s : State} (hq : s.pinsQuiet = true) : step s = operate s.pastPins := by
  unfold step nextOperation State.pastPins
  unfold State.pinsQuiet at hq
  split at hq <;> simp_all
  cases s
  simp_all [State.setPins]

/-- What a step that answers next did. -/
inductive StepKind (s t : State) : Prop
  /-- Reset (70_reset_and_hazards.md R108). -/
  | reset (rest : List PinEvent) (hh : s.pins = .reset :: rest) (ht : t = (s.setPins rest).resetState)
  /-- The `mode` pin moved (70_reset_and_hazards.md R110). -/
  | strap (m : Mode) (rest : List PinEvent) (hh : s.pins = .strap m :: rest) (ht : t = (s.setPins rest).setStrap m)
  /-- An autonomous cycle (43_framing_fsm.md R86). -/
  | auto (hq : s.pinsQuiet = true) (hp : s.phase = .idle) (hd : s.cycleDue = true) (ht : t = s.pastPins.autoCycle)
  /-- An illegal command (60_exceptions.md R97). -/
  | illegal (w : Word) (rest : List HostEvent) (c : IllegalCause) (hq : s.pinsQuiet = true) (hp : s.phase = .idle)
      (hd : s.cycleDue = false) (hh : s.host = .command w :: rest) (hw : decodeCmd s.cfg.n s.cfg.mode w = .error c)
      (ht : t = ((s.pastPins.setHost rest).raiseIllegal c).passLatency)
  /-- A legal command. -/
  | command (w : Word) (rest : List HostEvent) (i : Instr) (hq : s.pinsQuiet = true) (hp : s.phase = .idle)
      (hd : s.cycleDue = false) (hh : s.host = .command w :: rest) (hw : decodeCmd s.cfg.n s.cfg.mode w = .ok i)
      (ht : t = (effect i (s.pastPins.setHost rest)).passLatency)
  /-- The host offered nothing for some ticks. -/
  | idle (k : Nat) (rest : List HostEvent) (hq : s.pinsQuiet = true) (hp : s.phase = .idle) (hd : s.cycleDue = false)
      (hh : s.host = .idle k :: rest) (ht : t = (s.pastPins.setHost rest).elapse k)
  /-- The host offers nothing any more. -/
  | quiet (hq : s.pinsQuiet = true) (hp : s.phase = .idle) (hd : s.cycleDue = false) (hh : s.host = [])
      (ht : t = s.pastPins.idleOut)

theorem unlessBusy_next {s t : State} {o : Host.Outcome State Fault Refusal} (h : unlessBusy s o = .next t) :
    s.phase = .idle ∧ ((s.cycleDue = true ∧ t = s.autoCycle) ∨ (s.cycleDue = false ∧ o = .next t)) := by
  unfold unlessBusy at h
  split at h
  · rename_i hp
    refine ⟨hp, ?_⟩
    split at h
    · rename_i hd
      cases h
      exact .inl ⟨hd, rfl⟩
    · rename_i hd
      exact .inr ⟨by simpa using hd, h⟩
  · cases h

/-- An operation with an illegal word first at the port. -/
theorem operate_illegal {s : State} {w : Word} {rest : List HostEvent} {c : IllegalCause} (hp : s.phase = .idle)
    (hd : s.cycleDue = false) (hh : s.host = .command w :: rest) (hw : decodeCmd s.cfg.n s.cfg.mode w = .error c) :
    operate s = .next ((s.setHost rest).raiseIllegal c).passLatency := by
  have hw' : decodeCmd (s.setHost rest).cfg.n (s.setHost rest).cfg.mode w = .error c := hw
  simp [operate, hh, unlessBusy, hp, hd, acceptCommand_error hw', withLatency]

/-- An operation with a legal word first at the port. -/
theorem operate_command {s : State} {w : Word} {rest : List HostEvent} {i : Instr} (hp : s.phase = .idle)
    (hd : s.cycleDue = false) (hh : s.host = .command w :: rest) (hw : decodeCmd s.cfg.n s.cfg.mode w = .ok i) :
    operate s = .next (effect i (s.setHost rest)).passLatency := by
  have hw' : decodeCmd (s.setHost rest).cfg.n (s.setHost rest).cfg.mode w = .ok i := hw
  simp [operate, hh, unlessBusy, hp, hd, acceptCommand_ok hw', withLatency]

/-- An operation where a cycle is due. -/
theorem operate_cycle {s : State} (hp : s.phase = .idle) (hd : s.cycleDue = true) : operate s = .next s.autoCycle := by
  unfold operate
  split <;> simp [unlessBusy, hp, hd]

/-- An operation where the host offers nothing for some ticks. -/
theorem operate_idle {s : State} {k : Nat} {rest : List HostEvent} (hp : s.phase = .idle) (hd : s.cycleDue = false)
    (hh : s.host = .idle k :: rest) : operate s = .next ((s.setHost rest).elapse k) := by
  simp [operate, hh, unlessBusy, hp, hd]

/-- An operation where the host offers nothing any more. -/
theorem operate_quiet {s : State} (hp : s.phase = .idle) (hd : s.cycleDue = false) (hh : s.host = []) :
    operate s = .next s.idleOut := by
  simp [operate, hh, unlessBusy, hp, hd]

/-- The inversion of a step: if it answers next, it did one of these. -/
theorem step_cases {s t : State} (h : step s = .next t) : StepKind s t := by
  by_cases hq : s.pinsQuiet = true
  · rw [step_quiet hq] at h
    have hp : s.phase = .idle := by
      unfold operate at h
      split at h <;> exact (unlessBusy_next h).1
    cases hd : s.cycleDue with
    | true =>
      rw [operate_cycle (s := s.pastPins) hp hd] at h
      cases h
      exact .auto hq hp hd rfl
    | false =>
      cases hh : s.host with
      | nil =>
        rw [operate_quiet (s := s.pastPins) hp hd hh] at h
        cases h
        exact .quiet hq hp hd hh rfl
      | cons e rest =>
        cases e with
        | command w =>
          cases hw : decodeCmd s.cfg.n s.cfg.mode w with
          | error c =>
            rw [operate_illegal (s := s.pastPins) hp hd hh hw] at h
            cases h
            exact .illegal w rest c hq hp hd hh hw rfl
          | ok i =>
            rw [operate_command (s := s.pastPins) hp hd hh hw] at h
            cases h
            exact .command w rest i hq hp hd hh hw rfl
        | idle k =>
          rw [operate_idle (s := s.pastPins) hp hd hh] at h
          cases h
          exact .idle k rest hq hp hd hh rfl
  · unfold step nextOperation at h
    unfold State.pinsQuiet at hq
    split at h
    · rename_i rest hh
      cases h
      exact .reset rest hh rfl
    · rename_i m rest hh
      cases h
      exact .strap m rest hh rfl
    · simp_all
    · simp_all

/-- In CMD mode, between two operations, the next step runs the command that stands first (30_encoding.md R51). -/
theorem step_command_cmd {s : State} {w : Word} {rest : List HostEvent} (hq : s.pinsQuiet = true) (hp : s.phase = .idle)
    (hm : s.cfg.mode = .cmd) (hh : s.host = .command w :: rest) :
    step s = acceptCommand w (s.pastPins.setHost rest) := by
  rw [step_quiet hq]
  have hd : s.pastPins.cycleDue = false := State.cycleDue_cmd hm
  cases hw : decodeCmd s.cfg.n s.cfg.mode w with
  | error c =>
    have hw' : decodeCmd (s.pastPins.setHost rest).cfg.n (s.pastPins.setHost rest).cfg.mode w = .error c := hw
    rw [operate_illegal (s := s.pastPins) hp hd hh hw, acceptCommand_error hw']
    congr 1
    exact State.passLatency_cmd hm
  | ok i =>
    have hw' : decodeCmd (s.pastPins.setHost rest).cfg.n (s.pastPins.setHost rest).cfg.mode w = .ok i := hw
    rw [operate_command (s := s.pastPins) hp hd hh hw, acceptCommand_ok hw']
    congr 1
    apply State.passLatency_cmd
    rw [effect_cfg]
    exact hm

/-! ### Runs of several steps -/

@[simp] theorem run_zero (s : State) : run 0 s = .next s := rfl

/-- A run goes on from the state its first step answers. -/
theorem run_succ {s t : State} (h : step s = .next t) (k : Nat) : run (k + 1) s = run k t := by
  simp only [run, h]

/-- `run` is the host interface's run of this machine. -/
theorem run_eq_core_run (k : Nat) (s : State) : run k s = core.run k s := by
  induction k generalizing s with
  | zero => rfl
  | succ k ih =>
    have hs : core.step s = step s := rfl
    cases h : step s with
    | next t =>
      rw [run_succ h, ih t]
      simp only [Host.Core.run, hs, h]
      rfl
    | fault f =>
      simp only [run, Host.Core.run, hs, h]
      rfl
    | refused r =>
      simp only [run, Host.Core.run, hs, h]
      rfl

end Sys2Proof.Machine
end

