-- ==== Sys2Proof/Tests/Slice0.lean ====
section
/-! SUPPORT. Tests of single steps against the vectors of 95_test_vectors.md (named in each docstring; where a vector's
capacity is replaced by a smaller one, the expected values are computed by hand from the cited rule), and for every
obligation with hypotheses a witness that meets them together. -/

namespace Sys2Proof.Tests

open Sys2Proof Sys2Proof.Machine

-- One thread: the many small kernel evaluations of this file, each a thread of its own, take too much memory together.
set_option Elab.async false

/-! ### Helpers -/

/-- The state a step or a command answers. -/
def nextOf : Host.Outcome State Fault Refusal → Option State
  | .next s => some s
  | .fault _ => none
  | .refused _ => none

/-- The ring that holds bytes from an offset on, without wrapping, and zeros elsewhere. -/
def cells (o : Nat) : List Byte → Memory
  | [] => []
  | b :: bs => if b = 0 then cells (o + 1) bs else (o, b) :: cells (o + 1) bs

/-- A machine in CMD mode with a capacity, a ring and a cursor, all else as after reset. -/
def machine (n : Nat) (mem : Memory) (pos : Offset) : State :=
  { State.reset with cfg := { n := n, mode := .cmd, fill := .zero }, mem := mem, pos := pos }

/-- The same machine in AUTO mode, inside its cadence wait. -/
def inAuto (s : State) : State :=
  { s with cfg := { s.cfg with mode := .auto }, strap := .auto, timer := .running 0 }

/-- `FRM(1, 2, 3, 4)` written out (95_test_vectors.md; 30_encoding.md R43). -/
def frm1234 : List Byte :=
  [0x7F, 0xF0, 0x1C, 0xAF, 0, 0, 0, 1, 0, 0, 0, 2, 0, 0, 0, 3, 0, 0, 0, 4]

/-- `FRM(1, 0, 0, 0) ++ FRM(2, 0, 0, 0)` written out. -/
def twoFrames : List Byte :=
  [0x7F, 0xF0, 0x1C, 0xAF, 0, 0, 0, 1, 0, 0, 0, 0, 0, 0, 0, 0, 0, 0, 0, 0,
    0x7F, 0xF0, 0x1C, 0xAF, 0, 0, 0, 2, 0, 0, 0, 0, 0, 0, 0, 0, 0, 0, 0, 0]

/-! ### Ill-formed commands are refused -/

/-- V-CMD-14 and the bound of cause 3. -/
theorem test_wf_offset : (Instr.peek 200).wf 100 .cmd = false ∧ (Instr.decode 100).wf 100 .cmd = false ∧
    (Instr.peek 99).wf 100 .cmd = true := by decide

/-- V-CMD-9, V-CMD-10, V-CMD-12: what AUTO refuses and what it allows. -/
theorem test_wf_mode : (Instr.append 0x7F).wf 4096 .auto = false ∧ Instr.find.wf 4096 .auto = false ∧
    (Instr.decode 0).wf 4096 .auto = false ∧ Instr.frame.wf 4096 .auto = false ∧ Instr.cycle.wf 4096 .auto = false ∧
    Instr.nop.wf 4096 .auto = true ∧ (Instr.peek 10).wf 4096 .auto = true := by decide

/-! ### Decoding: words of the spec -/

/-- Words of V-ACC-1, V-ACC-5, V-DEC-2, P1, P6 and V-NOP-1 (95_test_vectors.md), one for every constructor. -/
theorem test_decode_words :
    decodeTableWord 32 0x00000000 = some .nop ∧ decodeTableWord 32 0x1000007F = some (.append 0x7F) ∧
      decodeTableWord 32 0x200A0000 = some (.peek 10) ∧ decodeTableWord 32 0x30000000 = some .find ∧
      decodeTableWord 32 0x4FFA0000 = some (.decode 4090) ∧ decodeTableWord 32 0x50000000 = some .frame ∧
      decodeTableWord 32 0x60000000 = some .cycle := by decide

/-- The encoder against the same words. -/
theorem test_encode_words :
    encode .nop = 0x00000000 ∧ encode (.append 0x7F) = 0x1000007F ∧ encode (.peek 10) = 0x200A0000 ∧
      encode .find = 0x30000000 ∧ encode (.decode 4090) = 0x4FFA0000 ∧ encode .frame = 0x50000000 ∧
      encode .cycle = 0x60000000 := by decide

/-- V-CMD-1 to V-CMD-8: cause 1 and cause 2. -/
theorem test_decode_illegal_encodings :
    decodeCmd 4096 .cmd 0x70000000 = .error .reservedOp ∧ decodeCmd 4096 .cmd 0xF0000000 = .error .reservedOp ∧
      decodeCmd 4096 .cmd 0x00000001 = .error .nonzeroUnused ∧ decodeCmd 4096 .cmd 0x00000100 = .error .nonzeroUnused ∧
      decodeCmd 4096 .cmd 0x10010000 = .error .nonzeroUnused ∧ decodeCmd 4096 .cmd 0x20000001 = .error .nonzeroUnused ∧
      decodeCmd 4096 .cmd 0x3000FF00 = .error .nonzeroUnused ∧ decodeCmd 4096 .cmd 0x50000001 = .error .nonzeroUnused ∧
      decodeCmd 4096 .cmd 0x60010000 = .error .nonzeroUnused ∧ decodeCmd 4096 .cmd 0x40000100 = .error .nonzeroUnused := by
  decide

/-- V-CMD-9, V-CMD-10, V-CMD-11, V-CMD-14, V-CMD-15, V-CMD-16: causes 3 and 4, and the order of the checks. -/
theorem test_decode_illegal_contexts :
    decodeCmd 4096 .auto 0x1000007F = .error .modeForbidden ∧ decodeCmd 4096 .auto 0x30000000 = .error .modeForbidden ∧
      decodeCmd 4096 .auto 0x10000100 = .error .nonzeroUnused ∧ decodeCmd 100 .cmd 0x20C80000 = .error .offRange ∧
      decodeCmd 100 .cmd 0x20630000 = .ok (.peek 99) ∧ decodeCmd 4096 .cmd 0x2FFF0000 = .ok (.peek 4095) := by
  decide

/-- The assembler on a program's text (30_encoding.md R53, R54; lines of P1 and P4). -/
theorem test_assembler_text :
    Assembler.assembleText 4096 "  FILL 2, 0x00 ; zeros\n\n  APPENDS 0x7F, 240\n PEEK 10\nDECODE 4090\nFRAME".toList =
      some [0x10000000, 0x10000000, 0x1000007F, 0x100000F0, 0x200A0000, 0x4FFA0000, 0x50000000] := by decide +kernel

/-- An operand out of range is refused, not truncated (30_encoding.md R53). -/
theorem test_assembler_refuses : Assembler.assembleText 4096 "APPEND 256".toList = none ∧
    Assembler.assembleText 100 "PEEK 100".toList = none := by decide +kernel

/-! ### Single steps -/

/-- V-NOP-1. -/
theorem test_nop : nextOf (exec .nop (machine 4096 (cells 0 [1, 2]) 2)) = some (machine 4096 (cells 0 [1, 2]) 2) := by
  decide

/-- V-ACC-1: the cursor wraps. -/
theorem test_append_wraps :
    (nextOf (exec (.append 0x7F) (machine 4096 [] 4095))).map (fun t => (t.mem, t.pos)) = some ([(4095, 0x7F)], 0) := by
  decide +kernel

/-- V-CMD-9, through the command port: cause 4, no effect. -/
theorem test_append_in_auto :
    (nextOf (step ((inAuto (machine 4096 [] 0)).withFetchWord 32 0x1000007F))).map
      (fun t => (t.ill, t.illc, t.mem, t.pos)) = some (true, 4, [], 0) := by decide +kernel

/-- V-CMD-15, through the command port. -/
theorem test_peek_last :
    (nextOf (step ((machine 100 [(99, 0xA5)] 7).withFetchWord 32 0x20630000))).map (fun t => (t.rdata, t.pos, t.ill)) =
      some (0xA5, 7, false) := by decide +kernel

/-- V-CMD-14, through the command port. -/
theorem test_peek_beyond_the_ring :
    (nextOf (step ((machine 100 [] 7).withFetchWord 32 0x20C80000))).map (fun t => (t.ill, t.illc)) =
      some (true, 3) := by decide +kernel

/-- V-DET-2: the smaller scan index wins, not the smaller offset. -/
theorem test_find_by_scan_index :
    (nextOf (exec .find (machine 4096 (cells 10 [0x7F, 0xF0, 0x1C, 0xAF] ++ cells 50 [0x7F, 0xF0, 0x1C, 0xAF]) 30))).map
      (fun t => (t.found, t.foff, t.pos)) = some (true, 50, 30) := by decide +kernel

/-- V-DET-5 to V-DET-9 at N = 64 (41_detector.md R67): the signature at 62, 63, 0, 1 is found from 2 and from 62, not from
the three cursors that make it a seam window. -/
theorem test_find_seam :
    [0, 1, 63, 2, 62].map (fun p =>
      (nextOf (exec .find (machine 64 (cells 0 [0x1C, 0xAF] ++ cells 62 [0x7F, 0xF0]) p))).map
        (fun t => (t.found, t.foff))) =
      [some (false, 0), some (false, 0), some (false, 0), some (true, 62), some (true, 62)] := by decide +kernel

/-- V-DEC-2: a wrapping window, every pattern kept. -/
theorem test_decode_wraps :
    (nextOf (exec (.decode 4090) (machine 4096
      (cells 0 [0x03, 0x04, 0xBF, 0x80, 0, 0, 0x7F, 0xC0, 0, 1, 0, 0, 0, 1] ++
        cells 4090 [0x7F, 0xF0, 0x1C, 0xAF, 0x01, 0x02]) 0))).map (fun t => (t.record, t.pub)) =
      some (⟨0x01020304, 0xBF800000, 0x7FC00001, 0x00000001⟩, []) := by decide +kernel

/-- V-DEC-4: no signature, bytes 0 to 3 ignored. -/
theorem test_decode_without_signature :
    (nextOf (exec (.decode 200) (machine 4096
      (cells 200 [0x11, 0x11, 0x11, 0x11, 1, 2, 3, 4, 5, 6, 7, 8, 9, 10, 11, 12, 13, 14, 15, 16]) 0))).map
      (fun t => t.record) = some ⟨0x01020304, 0x05060708, 0x090A0B0C, 0x0D0E0F10⟩ := by decide +kernel

/-- The third FRAME of P2. -/
theorem test_frame :
    (nextOf (exec .frame (machine 4096 (cells 0 twoFrames) 20))).map (fun t => (t.record, t.pos, t.foff, t.pub)) =
      some (⟨2, 0, 0, 0⟩, 40, 20, [⟨2, 0, 0, 0⟩]) := by decide +kernel

/-- V-FSM-11 at N = 64 (43_framing_fsm.md R92): a partial frame, `d = 56 > 44`, `m = 12`. -/
theorem test_frame_partial :
    (nextOf (exec .frame (machine 64 (cells 0 [0x7F, 0xF0, 0x1C, 0xAF, 0, 0, 0, 7]) 8))).map
      (fun t => (t.foff, t.pos, t.pub)) = some (0, 20, [⟨7, 0, 0, 0⟩]) := by decide +kernel

/-- V-FSM-9: the empty batch. -/
theorem test_cycle_empty_batch :
    (nextOf (exec .cycle { machine 4096 (cells 0 twoFrames) 20 with source := [.bytes []] })).map
      (fun t => (t.pub, t.pos, t.source)) = some ([⟨2, 0, 0, 0⟩], 40, []) := by decide +kernel

/-- V-FSM-10 at N = 64 (43_framing_fsm.md R90): three bytes land at 40 to 42, the scan from 43 finds 0 again. -/
theorem test_cycle_finds_again :
    (nextOf (exec .cycle { machine 64 (cells 0 twoFrames) 40 with source := [.bytes [0x99, 0x99, 0x99], .error] })).map
      (fun t => (t.pub, t.pos, t.byteAt 42, t.source)) = some ([⟨1, 0, 0, 0⟩], 20, 0x99, [.error]) := by decide +kernel

/-- `cmd_ready` after reset (70_reset_and_hazards.md R111, 60_exceptions.md R100, 30_encoding.md R46): 1 in CMD; 0 in AUTO,
where the first cycle is due; 0 while `rst` is 1 (R108), also where the strap moves between two edges with `rst` = 1. -/
theorem test_cmd_ready :
    State.reset.cmdReady = true ∧ ({ inAuto State.reset with timer := .expired } : State).cmdReady = false ∧
      (inAuto State.reset).cmdReady = true ∧ ({ State.reset with pins := [.reset] } : State).cmdReady = false ∧
      ((nextOf (step { State.reset with pins := [.reset, .strap .cmd, .reset] })).map (fun t => t.cmdReady)) = some false ∧
      ({ State.reset with pins := [.strap .cmd, .steady] } : State).cmdReady = true := by decide

/-- V-CMD-13: the first cause is kept. -/
theorem test_ill_sticky :
    (nextOf (run 2 ((machine 4096 [] 0).offer [0x00000001, 0x70000000]))).map (fun t => (t.ill, t.illc)) =
      some (true, 2) := by decide +kernel

/-- V-CAD-1 to V-CAD-4. -/
theorem test_cadence : cadenceWait 80 0 = 80 ∧ cadenceWait 80 79 = 1 ∧ cadenceWait 80 80 = 0 ∧ cadenceWait 80 120 = 0 := by
  decide

/-- Reset clears what the commands wrote and samples the strap (70_reset_and_hazards.md R108, R110). -/
theorem test_reset :
    (nextOf (step { machine 64 (cells 3 [9, 9]) 5 with strap := .auto, ill := true, illc := 2, pins := [.reset] })).map
      (fun t => (t.mem, t.pos, t.ill, t.cfg.mode)) = some ([], 0, false, .auto) := by decide

theorem test_reset_memory_wf : State.reset.mem.wf := by decide

/-- Writing what an unlisted offset reads as removes the entry. -/
theorem test_write_canonical : Memory.write [(1, 0x10), (2, 0x20)] 1 0x00 = [(2, 0x20)] ∧
    Memory.write [(2, 0x20)] 1 0x10 = [(1, 0x10), (2, 0x20)] := by decide

/-! ### Witnesses: the hypotheses of the obligations can be met -/

/-- The invariant from checks that can be evaluated. -/
theorem inv_of_checks {s : State} (h : (s.cfg.wf ∧ s.mem.wf ∧ (∀ c ∈ s.mem, c.1 < s.cfg.n) ∧ s.pos.toNat < s.cfg.n) ∧
    (s.foff.toNat < s.cfg.n ∧ (s.found = false → s.foff = 0) ∧ (s.ill = false ↔ s.illc = 0) ∧ s.illc.toNat ≤ 4) ∧
    s.phase = .idle ∧ s.timer = .expired) : s.Inv := by
  obtain ⟨⟨h1, h2, h3, h4⟩, ⟨h5, h6, h7, h8⟩, h9, h10⟩ := h
  exact
    { cfg_wf := h1, mem_wf := h2, mem_lt := h3, pos_lt := h4, foff_lt := h5, foff_none := h6, illc_none := h7,
      illc_le := h8, phase_idle := h9, timer_lt := by simp [h10], timer_cmd := fun _ => h10 }

/-- N = 32, `FRM(1, 2, 3, 4)` at 4 to 23, the cursor behind it, one batch of two bytes to come. -/
def demo : State := { machine 32 (cells 4 frm1234) 24 with source := [.bytes [0xAA, 0xBB]] }

/-- N = 32, no signature in the ring, a batch to come. -/
def blank : State := { machine 32 [] 30 with source := [.bytes [0xAA, 0xBB]] }

/-- `demo` with one more batch to come after the first. -/
def demoLater : State := { machine 32 (cells 4 frm1234) 24 with source := [.bytes [0xAA, 0xBB], .bytes [0xCC]] }

theorem demo_inv : demo.Inv := inv_of_checks (by decide +kernel)
theorem blank_inv : blank.Inv := inv_of_checks (by decide +kernel)
theorem demoLater_inv : demoLater.Inv := inv_of_checks (by decide +kernel)

theorem witness_ResetEventRestoresEveryItem :
    ∃ (s : State) (rest : List PinEvent), s.pins = .reset :: rest ∧ s.cfg.fill = .zero ∧ s.pos ≠ 0 ∧ s.host ≠ [] :=
  ⟨{ demo with host := [.command 0], pins := [.reset] }, [], by decide⟩

theorem witness_ModeIsSampledOnlyAtReset :
    (∃ s t rest, step s = .next t ∧ s.pins = .reset :: rest ∧ s.strap ≠ s.cfg.mode) ∧
      (∃ s t, step s = .next t ∧ (∀ rest, s.pins ≠ .reset :: rest) ∧ s.strap ≠ s.cfg.mode) ∧
      ∃ (s : State) (m : Mode) (rest : List PinEvent), s.pins = .strap m :: rest :=
  ⟨⟨{ demo with strap := .auto, pins := [.reset] }, _, [], rfl, rfl, by decide⟩,
    ⟨{ demo with strap := .auto }, _, rfl, by simp [demo, machine, State.reset], by decide⟩,
    ⟨{ demo with pins := [.strap .auto] }, .auto, [], rfl⟩⟩

theorem witness_DecodeOfEncodeIsTheCommand :
    (Instr.peek 4095).wf 4096 .cmd = true ∧ (Instr.decode 99).wf 100 .cmd = true ∧ (Instr.append 0xFF).wf 4 .cmd = true ∧
      (Instr.peek 0).wf 4 .auto = true := by decide

theorem witness_EncodeOfDecodedWordIsTheWord : decodeCmd 4096 .cmd 0x4FFF0000 = .ok (.decode 4095) := by decide

theorem witness_WordSelectsInstructionByMaskAndMatch :
    (∃ w : Word, ∃ r ∈ opcodeTable, ∃ r' ∈ opcodeTable, w &&& r.mask = r.pattern ∧ w &&& r'.mask = r'.pattern) ∧
      decodeCmd 4096 .cmd 0x100000FF = .ok (.append 0xFF) ∧ decodeCmd 4096 .cmd 0x2FFF0000 = .ok (.peek 4095) :=
  ⟨⟨0x2FFF0000, (Instr.peek 0).row, by decide, (Instr.peek 0).row, by decide, by decide⟩, by decide, by decide⟩

theorem witness_NonzeroUnusedFieldIsCause2 :
    ∃ w : Word, (fieldOp w).toNat < 7 ∧ ∀ r ∈ opcodeTable, ¬ r.selects w :=
  ⟨0x60000001, by decide, by unfold OpcodeRow.selects; decide⟩

/-- One witness for each of the five clauses; the third and the fifth at the two sides of the bound N = 100. -/
theorem witness_FirstFailingCheckIsTheCause :
    (∃ w : Word, (fieldOp w).toNat = 7) ∧
      (∃ w : Word, (fieldOp w).toNat = 6 ∧ ∀ r ∈ opcodeTable, ¬ r.selects w) ∧
      (∃ w : Word, (∃ r ∈ opcodeTable, r.selects w) ∧ (fieldOp w = 2 ∨ fieldOp w = 4) ∧ (fieldOff w).toNat = 100) ∧
      (∃ w : Word, (∃ r ∈ opcodeTable, r.selects w) ∧ ¬ ((fieldOp w = 2 ∨ fieldOp w = 4) ∧ 100 ≤ (fieldOff w).toNat) ∧
        fieldOp w ≠ 0 ∧ fieldOp w ≠ 2) ∧
      ∃ w : Word, (∃ r ∈ opcodeTable, r.selects w) ∧ ¬ ((fieldOp w = 2 ∨ fieldOp w = 4) ∧ 100 ≤ (fieldOff w).toNat) ∧
        fieldOp w = 2 ∧ (fieldOff w).toNat = 99 := by
  unfold OpcodeRow.selects
  exact ⟨⟨0x70000000, by decide⟩, ⟨0x60000001, by decide⟩, ⟨0x40640000, by decide⟩, ⟨0x40630000, by decide⟩,
    ⟨0x20630000, by decide⟩⟩

/-- Operands at the two sides of both bounds, at N = 4096, the largest capacity. -/
theorem witness_AssemblerRefusesOutOfRangeOperands :
    (∃ n v : Nat, n ≤ 4096 ∧ v = 255 ∧ v < n) ∧ (∃ n v : Nat, n ≤ 4096 ∧ ¬ v ≤ 255 ∧ v < n) ∧
      (∃ n v : Nat, n ≤ 4096 ∧ v + 1 = n) ∧ ∃ n v : Nat, n ≤ 4096 ∧ v = n :=
  ⟨⟨4096, 255, by decide⟩, ⟨4096, 256, by decide⟩, ⟨4096, 4095, by decide⟩, ⟨4096, 4096, by decide⟩⟩

theorem witness_IllegalCommandWritesOnlyIllAndIllc :
    (∃ (s : State) (w : Word) (rest : List HostEvent) (c : IllegalCause), s.pinsQuiet = true ∧ s.phase = .idle ∧
      s.cycleDue = false ∧ s.host = .command w :: rest ∧ decodeCmd s.cfg.n s.cfg.mode w = .error c ∧
      (∀ t, step s = .next t → t.rst = false) ∧ s.cfg.mode = .cmd) ∧
      ∃ (s : State) (w : Word) (rest : List HostEvent) (c : IllegalCause), s.pinsQuiet = true ∧ s.phase = .idle ∧
        s.cycleDue = false ∧ s.host = .command w :: rest ∧ decodeCmd s.cfg.n s.cfg.mode w = .error c ∧ s.cfg.mode = .auto :=
  ⟨⟨{ demo with host := [.command 0x70000000] }, 0x70000000, [], .reservedOp, rfl, by decide, by decide, rfl, rfl,
      fun t h => by cases h; rfl, rfl⟩,
    ⟨{ inAuto demo with host := [.command 0x50000000], pins := [.steady, .reset] }, 0x50000000, [], .modeForbidden, rfl,
      by decide, by decide, rfl, rfl, rfl⟩⟩

theorem witness_IllIsStickyAndKeepsTheFirstCause :
    (∃ (s t : State) (w : Word) (rest : List HostEvent) (c : IllegalCause), s.pinsQuiet = true ∧ s.cycleDue = false ∧
      s.host = .command w :: rest ∧ decodeCmd s.cfg.n s.cfg.mode w = .error c ∧ step s = .next t ∧ s.ill = false) ∧
      (∃ (s t : State) (w : Word) (rest : List HostEvent) (c : IllegalCause), s.pinsQuiet = true ∧ s.cycleDue = false ∧
        s.host = .command w :: rest ∧ decodeCmd s.cfg.n s.cfg.mode w = .error c ∧ step s = .next t ∧ s.ill = true) ∧
      (∃ s t, step s = .next t ∧ s.ill = true ∧ ∀ rest, s.pins ≠ .reset :: rest) ∧
      ∃ s t rest, s.pins = .reset :: rest ∧ step s = .next t ∧ s.ill = true :=
  ⟨⟨{ demo with host := [.command 0xF0000000] }, _, 0xF0000000, [], .reservedOp, rfl, by decide, rfl, rfl, rfl, rfl⟩,
    ⟨{ demo with ill := true, illc := 3, host := [.command 1] }, _, 1, [], .nonzeroUnused, rfl, by decide, rfl, rfl, rfl,
      rfl⟩,
    ⟨{ demo with ill := true, illc := 3 }, _, rfl, rfl, by simp [demo, machine, State.reset]⟩,
    ⟨{ demo with ill := true, illc := 3, pins := [.reset] }, _, [], rfl, rfl, rfl⟩⟩

theorem witness_AutoModeForbidsAllButNopAndPeek :
    ∃ (s : State) (i : Instr), s.cfg.mode = .auto ∧ i.offsetInRange s.cfg.n = true ∧ i ≠ .nop ∧ ∀ o, i ≠ .peek o :=
  ⟨inAuto demo, .decode 31, rfl, by decide, by decide, by simp⟩

theorem witness_OffsetBeyondTheRingIsCause3 : ∃ (s : State) (o : Offset), s.cfg.n = o.toNat := ⟨demo, 32, by decide⟩

theorem witness_StepRunsTheDecodedCommand :
    (∃ (s : State) (w : Word) (rest : List HostEvent) (i : Instr), s.pinsQuiet = true ∧ s.phase = .idle ∧ s.host = .command w :: rest ∧
      decodeCmd s.cfg.n s.cfg.mode w = .ok i ∧ s.cfg.mode = .cmd) ∧
      (∃ (s : State) (w : Word) (rest : List HostEvent) (i : Instr), s.pinsQuiet = true ∧ s.phase = .idle ∧ s.host = .command w :: rest ∧
        decodeCmd s.cfg.n s.cfg.mode w = .ok i ∧ s.cfg.mode = .auto ∧ s.timer ≠ .expired) ∧
      ∃ (s : State) (nbits w : Nat) (i : Instr), s.phase = .idle ∧ s.cfg.mode = .cmd ∧
        decodeCmd s.cfg.n .cmd (tableWord nbits w) = .ok i :=
  ⟨⟨{ demo with host := [.command 0x50000000] }, 0x50000000, [], .frame, rfl, rfl, rfl, rfl, rfl⟩,
    ⟨{ inAuto demo with host := [.command 0x201F0000] }, 0x201F0000, [], .peek 31, rfl, rfl, rfl, rfl, rfl,
      by decide⟩,
    ⟨demo, 32, 0x401F0000, .decode 31, rfl, rfl, rfl⟩⟩

/-- The second clause where a cycle is due at once, a word is held, and operations, a strap change and a reset come before
the reset. -/
theorem witness_ResetBeatsCycleBeatsCommand :
    (∃ (s : State) (rest : List PinEvent), s.pins = .reset :: rest) ∧
      (∃ (s : State) (ps rest : List PinEvent), s.phase = .idle ∧ s.pins = ps ++ .reset :: rest ∧ ps ≠ [] ∧
        s.cycleDue = true ∧ s.host ≠ []) ∧
      (∃ (s : State) (w : Word) (rest : List HostEvent), s.pinsQuiet = true ∧ s.phase = .idle ∧ s.cfg.mode = .auto ∧
        s.timer = .expired ∧ s.host = .command w :: rest ∧ PinEvent.reset ∈ s.pins) ∧
      (∃ (s : State) (w : Word) (rest : List HostEvent), s.pinsQuiet = true ∧ s.phase = .idle ∧ s.cfg.mode = .auto ∧
        s.timer ≠ .expired ∧ s.host = .command w :: rest) ∧
      ∃ (s t : State) (w : Word) (rest : List HostEvent), s.host = .command w :: rest ∧ step s = .next t ∧
        t.host = rest :=
  ⟨⟨{ demo with pins := [.reset] }, [], rfl⟩,
    ⟨{ inAuto demo with timer := .expired, host := [.command 0], pins := [.steady, .steady, .strap .cmd, .reset, .reset] },
      [.steady, .steady, .strap .cmd, .reset], [], rfl, rfl, by decide⟩,
    ⟨{ inAuto demo with timer := .expired, host := [.command 0], pins := [.steady, .reset] }, 0, [], rfl, rfl, rfl, rfl,
      rfl, by decide⟩,
    ⟨{ inAuto demo with host := [.command 0] }, 0, [], rfl, rfl, rfl, by decide, rfl⟩,
    ⟨{ demo with host := [.command 0] }, _, 0, [], rfl, rfl, rfl⟩⟩

theorem witness_NoConditionStopsTheBlock : ∃ s : State, s.phase = .idle := ⟨demo, rfl⟩

theorem witness_AutoCyclesRecur : ∃ s : State, s.Inv ∧ s.cfg.mode = .auto ∧ s.noResetAhead ∧ s.host ≠ [] ∧ s.pins ≠ [] :=
  ⟨{ inAuto demo with timer := .expired, host := [.command 0x20000000, .idle 5], pins := [.strap .cmd, .steady] },
    inv_of_checks (by decide +kernel), rfl, by unfold State.noResetAhead; decide, by decide⟩

theorem witness_ReadReturnsTheLastWrite : ∃ (s : State) (o a : Nat), s.mem.wf ∧ a ≠ o ∧ a % s.cfg.n = o % s.cfg.n :=
  ⟨demo, 31, 63, by decide +kernel⟩

theorem witness_WindowReadsWrapModuloN :
    (∃ i k : Nat, i < k) ∧ ∃ i k : Nat, i + demo.cfg.n < k := ⟨⟨0, 1, by decide⟩, ⟨0, 33, by decide⟩⟩

theorem witness_AppendLoopsOverItsBytes : ∃ (s : State) (a : Nat), s.Inv ∧ a < s.cfg.n ∧ a ≠ s.pos.toNat :=
  ⟨demo, 31, demo_inv, by decide⟩

/-- Two bytes from offset 31: the second lands on 0. Offset 1 stays. Then 33 bytes of one value from 30: offset 30 is
written twice. -/
theorem witness_AppendLastByteOnAnOffsetWins :
    (∃ (s : State) (bs : List Byte) (i : Nat), s.Inv ∧ i < s.cfg.n ∧
      ∀ j < bs.length, (s.pos.toNat + j) % s.cfg.n ≠ i) ∧
      (∃ (s : State) (bs : List Byte) (i j : Nat), s.Inv ∧ s.cfg.n < bs.length ∧ j < bs.length ∧
        (s.pos.toNat + j) % s.cfg.n = i ∧
        ∀ j' < bs.length, (s.pos.toNat + j') % s.cfg.n = i → j' ≤ j) ∧
      ∃ (s : State) (bs : List Byte), s.Inv ∧ bs.length = s.cfg.n :=
  ⟨⟨blank, [1, 2], 1, blank_inv, by decide⟩,
    ⟨blank, List.replicate 33 7, 30, 32, blank_inv, by decide +kernel⟩,
    ⟨blank, List.replicate 32 7, blank_inv, by decide⟩⟩

theorem witness_AppendCommandStoresAndAdvances :
    ∃ (s : State) (a : Nat), s.Inv ∧ s.cfg.mode = .cmd ∧ s.pos.toNat + 1 = s.cfg.n ∧ a < s.cfg.n ∧ a ≠ s.pos.toNat :=
  ⟨machine 32 [] 31, 0, inv_of_checks (by decide), by decide⟩

theorem witness_PeekCommandReadsOneByte : ∃ (s : State) (o : Offset), o.toNat + 1 = s.cfg.n := ⟨demo, 31, by decide⟩

/-- Six bytes into a ring of four: the stream's last four stay, and a window of three crosses the wrap. -/
theorem witness_AppendedStreamReadsBackAcrossTheWrap :
    ∃ (s : State) (bs : List Byte) (i k : Nat), s.Inv ∧ s.cfg.mode = .cmd ∧ s.host = [] ∧ s.pins = [] ∧ s.pos = 0 ∧
      i < bs.length ∧ bs.length - s.cfg.n ≤ i ∧ i + k ≤ bs.length ∧ i % s.cfg.n + k > s.cfg.n :=
  ⟨machine 4 [] 0, [1, 2, 3, 4, 5, 6], 3, 3, inv_of_checks (by decide), by decide⟩

theorem witness_ScanIsExact : (∃ s : State, s.cfg.wf ∧ s.cfg.n = 4) ∧ ∃ s : State, s.cfg.wf ∧ s.cfg.n = 4096 :=
  ⟨⟨machine 4 [] 0, by decide⟩, ⟨machine 4096 [] 0, by decide⟩⟩

theorem witness_SeamWindowsAreNeverFound :
    ∃ (s : State) (p k : Nat), s.cfg.wf ∧ p < s.cfg.n ∧ k < 3 ∧ s.sigMatch ((p + s.cfg.n - 3 + k) % s.cfg.n) = true ∧
      ∀ o < s.cfg.n, s.sigMatch o = true → o = (p + s.cfg.n - 3 + k) % s.cfg.n :=
  ⟨machine 32 (cells 0 [0x1C, 0xAF] ++ cells 30 [0x7F, 0xF0]) 0, 0, 1, by decide +kernel⟩

theorem witness_SignatureRunsDoNotOverlap :
    ∃ (s : State) (a b : Nat), a < s.cfg.n ∧ b < s.cfg.n ∧ s.sigMatch a = true ∧ s.sigMatch b = true ∧ a ≠ b :=
  ⟨machine 32 (cells 8 [0x7F, 0xF0, 0x1C, 0xAF, 0x7F, 0xF0, 0x1C, 0xAF]) 0, 8, 12, by decide +kernel⟩

theorem witness_FindCommandReportsTheScan :
    (∃ (s : State) (o : Nat), s.Inv ∧ s.cfg.mode = .cmd ∧ s.findStart s.pos.toNat = some o) ∧
      ∃ s : State, s.Inv ∧ s.cfg.mode = .cmd ∧ s.findStart s.pos.toNat = none :=
  ⟨⟨demo, 4, demo_inv, rfl, by decide +kernel⟩, ⟨blank, blank_inv, rfl, by decide +kernel⟩⟩

theorem witness_DecoderLooksOnlyAtBytes4To19 :
    ∃ (s t : State) (fs fs' : Nat), (∀ i < 20, 4 ≤ i → s.byteAt (fs + i) = t.byteAt (fs' + i)) ∧
      s.byteAt fs ≠ t.byteAt fs' ∧ fs ≠ fs' :=
  ⟨demo, machine 64 (cells 12 (frm1234.drop 4)) 0, 4, 8, by decide +kernel⟩

theorem witness_FrameRoundTripIsExact :
    ∃ (s : State) (fs : Nat) (r : Record),
      s.readWindow fs 20 = Config.sig ++ beBytes r.count ++ beBytes r.x ++ beBytes r.y ++ beBytes r.z :=
  ⟨demo, 4, ⟨1, 2, 3, 4⟩, by decide +kernel⟩

theorem witness_DecodeCommandFillsTheRecord : ∃ (s : State) (o : Offset), s.cfg.mode = .cmd ∧ o.toNat + 1 = s.cfg.n :=
  ⟨demo, 31, by decide⟩

/-- The smallest ring that holds a frame, the cursor at its last byte. -/
theorem witness_PushedFrameDecodesToItsRecord :
    ∃ (s : State) (r : Record) (ws : List Word), s.Inv ∧ s.cfg.mode = .cmd ∧ s.host = [] ∧ s.pins = [] ∧ 20 = s.cfg.n ∧
      Assembler.assemble s.cfg.n
        [.pushFrame r.count.toNat r.x.toNat r.y.toNat r.z.toNat, .decode s.pos.toNat] = some ws :=
  ⟨machine 20 [] 19, ⟨0xFFFFFFFF, 2, 3, 4⟩,
    ((Assembler.assemble 20 [.pushFrame 0xFFFFFFFF 2 3 4, .decode 19]).getD []), inv_of_checks (by decide), rfl, rfl, rfl,
    rfl, by decide +kernel⟩

theorem witness_RecordWordLayout : ∃ s : State, s.outputs.cmdReady = true := ⟨demo, by decide⟩

theorem witness_CursorAfterAMatch :
    demo.Inv ∧ demo.cfg.mode = .cmd ∧ demo.findStart demo.pos.toNat = some 4 ∧
      demo.ingest.findStart demo.ingest.pos.toNat = some 4 := ⟨demo_inv, rfl, by decide +kernel, by decide +kernel⟩

theorem witness_FrameCommandOnAMatch :
    ∃ (s : State) (fs : Nat), s.Inv ∧ s.cfg.mode = .cmd ∧ s.findStart s.pos.toNat = some fs :=
  ⟨demo, 4, demo_inv, rfl, by decide +kernel⟩

theorem witness_FrameCommandWithoutAMatch : ∃ s : State, s.Inv ∧ s.cfg.mode = .cmd ∧ s.findStart s.pos.toNat = none :=
  ⟨blank, blank_inv, rfl, by decide +kernel⟩

theorem witness_CycleCommandIngestsThenFrames :
    ∃ (s : State) (j a : Nat), s.Inv ∧ s.cfg.mode = .cmd ∧ j < s.batch.length ∧ a < s.cfg.n ∧
      ∀ j < s.batch.length, (s.pos.toNat + j) % s.cfg.n ≠ a :=
  ⟨demo, 1, 0, demo_inv, by decide +kernel⟩

theorem witness_AutonomousCycleDoesWhatCycleDoes :
    ∃ s : State, s.Inv ∧ s.cfg.mode = .auto ∧ s.timer = .expired ∧ s.pinsQuiet = true ∧ s.host ≠ [] ∧ PinEvent.reset ∈ s.pins :=
  ⟨{ inAuto demo with timer := .expired, host := [.command 0x20000000], pins := [.steady, .reset] },
    inv_of_checks (by decide +kernel), rfl, rfl, rfl, by decide⟩

/-- An answer of N + 1 bytes at N = 4, and one within the bound. The clause about ERROR sets the answers itself. -/
theorem witness_OneBoundedSourceReadPerCycle :
    (∃ (s t : State) (bs : List Byte) (src : List SourceAnswer), s.Inv ∧ s.cfg.mode = .cmd ∧
      s.source = .bytes bs :: src ∧ exec .cycle s = .next t ∧ bs.length = s.cfg.n + 1) ∧
      ∃ (s t : State) (bs : List Byte) (src : List SourceAnswer), s.Inv ∧ s.cfg.mode = .cmd ∧
        s.source = .bytes bs :: src ∧ exec .cycle s = .next t ∧ bs.length ≤ s.cfg.n :=
  ⟨⟨{ machine 4 [] 0 with source := [.bytes [1, 2, 3, 4, 5]] }, _, [1, 2, 3, 4, 5], [], inv_of_checks (by decide), rfl,
      rfl, exec_legal (by decide), rfl⟩,
    ⟨demo, _, [0xAA, 0xBB], [], demo_inv, rfl, rfl, exec_legal (by decide), by decide⟩⟩

theorem witness_NoMatchMovesTheCursorByTheBatchOnly :
    ∃ s : State, s.Inv ∧ s.cfg.mode = .cmd ∧ s.ingest.findStart s.ingest.pos.toNat = none ∧ s.batch ≠ [] :=
  ⟨blank, blank_inv, rfl, by decide +kernel, by decide⟩

theorem witness_PublishedOncePerMatchAndNeverElse :
    (∃ s t, step s = .next t) ∧ (∃ i s t, exec i s = .next t ∧ i ≠ .frame ∧ i ≠ .cycle) ∧
      (∃ s t, s.cfg.mode = .cmd ∧ exec .frame s = .next t ∧ t.found = true) ∧
      ∃ s t, s.cfg.mode = .cmd ∧ exec .cycle s = .next t ∧ t.found = false :=
  ⟨⟨demo, _, rfl⟩, ⟨.find, demo, _, exec_legal (by decide), by decide⟩,
    ⟨demo, _, rfl, exec_legal (by decide), by decide +kernel⟩, ⟨blank, _, rfl, exec_legal (by decide), by decide +kernel⟩⟩

theorem witness_NextScanStartsPastTheBatch :
    (∃ (s t : State) (fs : Nat), s.Inv ∧ s.cfg.mode = .cmd ∧ exec .frame s = .next t ∧
      s.findStart s.pos.toNat = some fs) ∧
      ∃ (s t : State) (fs : Nat), s.Inv ∧ s.cfg.mode = .cmd ∧ exec .cycle s = .next t ∧
        s.ingest.findStart s.ingest.pos.toNat = some fs :=
  ⟨⟨demo, _, 4, demo_inv, rfl, exec_legal (by decide), by decide +kernel⟩,
    ⟨demo, _, 4, demo_inv, rfl, exec_legal (by decide), by decide +kernel⟩⟩

/-- FRAME consumes the frame of `demoLater`; the batch to come is short and no older window matches. The same after
CYCLE. -/
theorem witness_ConsumedFrameIsPublishedAgain :
    (∃ (s t : State) (fs : Nat), s.Inv ∧ s.cfg.mode = .cmd ∧ 20 ≤ s.cfg.n ∧
      exec .frame s = .next t ∧ s.findStart s.pos.toNat = some fs ∧
      0 < t.batch.length ∧ t.batch.length ≤ s.cfg.n - 20 ∧
      ∀ o < s.cfg.n, scanIndex s.cfg.n t.ingest.pos.toNat o < s.cfg.n - 20 - t.batch.length →
        t.ingest.sigMatch o = false) ∧
      ∃ (s t : State) (fs : Nat), s.Inv ∧ s.cfg.mode = .cmd ∧ 20 ≤ s.cfg.n ∧
        exec .cycle s = .next t ∧ s.ingest.findStart s.ingest.pos.toNat = some fs ∧
        0 < t.batch.length ∧ t.batch.length ≤ s.cfg.n - 20 ∧
        ∀ o < s.cfg.n, scanIndex s.cfg.n t.ingest.pos.toNat o < s.cfg.n - 20 - t.batch.length →
          t.ingest.sigMatch o = false :=
  ⟨⟨demoLater, _, 4, demoLater_inv, rfl, by decide, exec_legal (by decide), by decide +kernel⟩,
    ⟨demoLater, _, 4, demoLater_inv, rfl, by decide, exec_legal (by decide), by decide +kernel⟩⟩

/-- The write boundary is four bytes past the consumed frame, and the batch has two bytes: after FRAME, and after a CYCLE
with an empty batch. -/
theorem witness_BytesAfterAConsumedFrameAreOverwritten :
    (∃ (s u t : State) (fs j : Nat), s.Inv ∧ s.cfg.mode = .cmd ∧ (exec .frame s = .next t ∧ u = s) ∧
      u.findStart u.pos.toNat = some fs ∧ j < t.batch.length ∧
      j < scanIndex s.cfg.n ((fs + 20) % s.cfg.n) u.pos.toNat) ∧
      ∃ (s u t : State) (fs j : Nat), s.Inv ∧ s.cfg.mode = .cmd ∧ (exec .cycle s = .next t ∧ u = s.ingest) ∧
        u.findStart u.pos.toNat = some fs ∧ j < t.batch.length ∧
        j < scanIndex s.cfg.n ((fs + 20) % s.cfg.n) u.pos.toNat :=
  ⟨⟨{ demo with pos := 28 }, _, _, 4, 1, inv_of_checks (by decide +kernel), rfl, ⟨exec_legal (by decide), rfl⟩,
      by decide +kernel⟩,
    ⟨{ demo with pos := 28, source := [.error, .bytes [0xAA, 0xBB]] }, _, _, 4, 1,
      inv_of_checks (by decide +kernel), rfl, ⟨exec_legal (by decide), rfl⟩, by decide +kernel⟩⟩

/-- V-FSM-11 at N = 64, for FRAME and, with an empty batch, for CYCLE; and the largest `m`, 16, in a ring that is larger
than that. -/
theorem witness_PartialFrameDecodesStaleBytes :
    (∃ (s u : State) (fs : Nat), s.Inv ∧ s.cfg.mode = .cmd ∧ u = s ∧ u.findStart u.pos.toNat = some fs ∧
      s.cfg.n < scanIndex s.cfg.n u.pos.toNat fs + 20) ∧
      (∃ (s u : State) (fs : Nat), s.Inv ∧ s.cfg.mode = .cmd ∧ u = s.ingest ∧ u.findStart u.pos.toNat = some fs ∧
        s.cfg.n < scanIndex s.cfg.n u.pos.toNat fs + 20) ∧
      ∃ (s u : State) (fs : Nat), s.Inv ∧ s.cfg.mode = .cmd ∧ u = s ∧ u.findStart u.pos.toNat = some fs ∧
        scanIndex s.cfg.n u.pos.toNat fs + 20 = 16 + s.cfg.n ∧ 16 < s.cfg.n :=
  ⟨⟨machine 64 (cells 0 [0x7F, 0xF0, 0x1C, 0xAF, 0, 0, 0, 7]) 8, _, 0, inv_of_checks (by decide +kernel), rfl, rfl,
      by decide +kernel⟩,
    ⟨{ machine 64 (cells 0 [0x7F, 0xF0, 0x1C, 0xAF, 0, 0, 0, 7]) 8 with source := [.error] }, _, 0,
      inv_of_checks (by decide +kernel), rfl, rfl, by decide +kernel⟩,
    ⟨machine 64 (cells 0 [0x7F, 0xF0, 0x1C, 0xAF]) 4, _, 0, inv_of_checks (by decide +kernel), rfl, rfl,
      by decide +kernel⟩⟩

/-- A state whose next step takes a NOP. -/
def nopNext : State := { demo with host := [.command 0x00000000] }

/-- A NOP at the port offers no other command. -/
theorem nopNext_offers {i : Instr} (hi : i ≠ .nop) : ¬ nopNext.offers i := by
  rintro ⟨w, rest, hh, hw⟩
  simp only [nopNext, List.cons.injEq, HostEvent.command.injEq] at hh
  obtain ⟨rfl, -⟩ := hh
  have e : decodeCmd nopNext.cfg.n nopNext.cfg.mode 0x00000000 = .ok .nop := rfl
  rw [e] at hw
  cases hw
  exact hi rfl

/-- In CMD mode the block starts no cycle on its own. -/
theorem nopNext_starts : ¬ nopNext.startsCycle := by unfold State.startsCycle; simp [State.cycleDue_cmd (s := nopNext) rfl]

/-- The hypotheses of the step clauses of the statements on who writes what, met by one state. -/
theorem witness_step_clauses :
    ∃ s t : State, step s = .next t ∧ (∀ rest, s.pins ≠ .reset :: rest) ∧ ¬ s.startsCycle ∧
      (∀ b, ¬ s.offers (.append b)) ∧ (∀ o, ¬ s.offers (.peek o)) ∧ (∀ o, ¬ s.offers (.decode o)) ∧
      ¬ s.offers .find ∧ ¬ s.offers .frame ∧ ¬ s.offers .cycle :=
  ⟨nopNext, _, rfl, by simp [nopNext, demo, machine, State.reset], nopNext_starts, fun _ => nopNext_offers (by simp),
    fun _ => nopNext_offers (by simp), fun _ => nopNext_offers (by simp), nopNext_offers (by simp),
    nopNext_offers (by simp), nopNext_offers (by simp)⟩

theorem witness_OnlyAppendsWriteTheRing :
    (∃ i s t, exec i s = .next t ∧ (∀ b, i ≠ .append b) ∧ i ≠ .cycle) ∧
      ∃ s t : State, step s = .next t ∧ (∀ rest, s.pins ≠ .reset :: rest) ∧ ¬ s.startsCycle ∧
        (∀ b, ¬ s.offers (.append b)) ∧ ¬ s.offers .cycle :=
  ⟨⟨.frame, demo, _, exec_legal (by decide), by simp, by decide⟩,
    let ⟨s, t, h, hr, hc, ha, _, _, _, _, hy⟩ := witness_step_clauses
    ⟨s, t, h, hr, hc, ha, hy⟩⟩

theorem witness_OnlyAppendsAndMatchesMoveTheCursor :
    (∃ s : State, s.Inv ∧ ∃ fs, s.findStart s.pos.toNat = some fs) ∧
      (∃ s : State, s.findStart s.pos.toNat = none) ∧
      (∃ i s t, exec i s = .next t ∧ (∀ b, i ≠ .append b) ∧ i ≠ .frame ∧ i ≠ .cycle) ∧
      ∃ s t : State, step s = .next t ∧ (∀ rest, s.pins ≠ .reset :: rest) ∧ ¬ s.startsCycle ∧
        (∀ b, ¬ s.offers (.append b)) ∧ ¬ s.offers .frame ∧ ¬ s.offers .cycle :=
  ⟨⟨demo, demo_inv, 4, by decide +kernel⟩, ⟨blank, by decide +kernel⟩,
    ⟨.decode 3, demo, _, exec_legal (by decide), by simp, by decide, by decide⟩,
    let ⟨s, t, h, hr, hc, ha, _, _, _, hf, hy⟩ := witness_step_clauses
    ⟨s, t, h, hr, hc, ha, hf, hy⟩⟩

theorem witness_OnlyScansWriteFoundAndFoff :
    (∃ (s t : State) (i : Instr), s.Inv ∧ s.cfg.mode = .cmd ∧ (i = .find ∨ i = .frame) ∧ exec i s = .next t ∧
      s.findStart s.pos.toNat = some 4) ∧
      (∃ (s t : State) (i : Instr), s.Inv ∧ s.cfg.mode = .cmd ∧ (i = .find ∨ i = .frame) ∧ exec i s = .next t ∧
        s.findStart s.pos.toNat = none) ∧
      (∃ s t : State, s.Inv ∧ s.cfg.mode = .cmd ∧ exec .cycle s = .next t ∧
        s.ingest.findStart s.ingest.pos.toNat = some 4) ∧
      (∃ s t : State, s.Inv ∧ s.cfg.mode = .cmd ∧ exec .cycle s = .next t ∧
        s.ingest.findStart s.ingest.pos.toNat = none) ∧
      (∃ i s t, exec i s = .next t ∧ i ≠ .find ∧ i ≠ .frame ∧ i ≠ .cycle) ∧
      ∃ s t : State, step s = .next t ∧ (∀ rest, s.pins ≠ .reset :: rest) ∧ ¬ s.startsCycle ∧
        ¬ s.offers .find ∧ ¬ s.offers .frame ∧ ¬ s.offers .cycle :=
  ⟨⟨demo, _, .frame, demo_inv, rfl, .inr rfl, exec_legal (by decide), by decide +kernel⟩,
    ⟨blank, _, .find, blank_inv, rfl, .inl rfl, exec_legal (by decide), by decide +kernel⟩,
    ⟨demo, _, demo_inv, rfl, exec_legal (by decide), by decide +kernel⟩,
    ⟨blank, _, blank_inv, rfl, exec_legal (by decide), by decide +kernel⟩,
    ⟨.append 9, demo, _, exec_legal (by decide), by decide⟩,
    let ⟨s, t, h, hr, hc, _, _, _, hi, hf, hy⟩ := witness_step_clauses
    ⟨s, t, h, hr, hc, hi, hf, hy⟩⟩

theorem witness_OnlyPeekWritesRdata :
    (∃ (s t : State) (o : Offset), o.toNat + 1 = s.cfg.n ∧ exec (.peek o) s = .next t) ∧
      (∃ i s t, exec i s = .next t ∧ ∀ o, i ≠ .peek o) ∧
      ∃ s t : State, step s = .next t ∧ (∀ rest, s.pins ≠ .reset :: rest) ∧ ∀ o, ¬ s.offers (.peek o) :=
  ⟨⟨demo, _, 31, by decide, exec_legal (by decide)⟩, ⟨.cycle, demo, _, exec_legal (by decide), by simp⟩,
    let ⟨s, t, h, hr, _, _, hk, _⟩ := witness_step_clauses
    ⟨s, t, h, hr, hk⟩⟩

theorem witness_OnlyDecodesWriteTheRecord :
    (∃ i s t, exec i s = .next t ∧ (∀ o, i ≠ .decode o) ∧ i ≠ .frame ∧ i ≠ .cycle) ∧
      (∃ s t : State, step s = .next t ∧ (∀ rest, s.pins ≠ .reset :: rest) ∧ ¬ s.startsCycle ∧
        (∀ o, ¬ s.offers (.decode o)) ∧ ¬ s.offers .frame ∧ ¬ s.offers .cycle) ∧
      (∃ (s : State) (fs : Nat), s.findStart s.pos.toNat = some fs) ∧ ∃ s : State, s.findStart s.pos.toNat = none :=
  ⟨⟨.find, demo, _, exec_legal (by decide), by simp, by decide, by decide⟩,
    (let ⟨s, t, h, hr, hc, _, _, hd, _, hf, hy⟩ := witness_step_clauses
    ⟨s, t, h, hr, hc, hd, hf, hy⟩), ⟨demo, 4, by decide +kernel⟩, ⟨blank, by decide +kernel⟩⟩

/-- Ready; a reset ahead, behind a strap change too; a cycle due; and a word offered where it is taken, behind a strap change,
and where it is not, since a reset comes behind one. -/
theorem witness_StatusOutputsShowTheRegisters :
    (∃ s : State, (∀ (ms : List Mode) (rest : List PinEvent), s.pins ≠ ms.map PinEvent.strap ++ .reset :: rest) ∧ s.phase = .idle ∧
      s.cycleDue = false) ∧
      (∃ (s : State) (ms : List Mode) (rest : List PinEvent), s.pins = ms.map PinEvent.strap ++ .reset :: rest ∧
        ms ≠ [] ∧ s.phase = .idle ∧ s.cycleDue = false) ∧
      (∃ s : State, s.cycleDue = true) ∧
      (∃ (s : State) (w : Word) (rest : List HostEvent) (ms : List Mode) (ps : List PinEvent),
        s.host = .command w :: rest ∧ s.pins = ms.map PinEvent.strap ++ ps ∧ (∀ m r, ps ≠ .strap m :: r) ∧ ms ≠ [] ∧
        s.outputs.cmdReady = true) ∧
      ∃ (s : State) (w : Word) (rest : List HostEvent) (ms : List Mode) (ps : List PinEvent),
        s.host = .command w :: rest ∧ s.pins = ms.map PinEvent.strap ++ ps ∧ (∀ m r, ps ≠ .strap m :: r) ∧ ms ≠ [] ∧
        s.outputs.cmdReady = false :=
  ⟨⟨demo, by simp [demo, machine, State.reset], rfl, rfl⟩,
    ⟨{ demo with pins := [.strap .auto, .reset] }, [.auto], [], rfl, by decide, rfl, rfl⟩,
    ⟨{ inAuto demo with timer := .expired }, rfl⟩,
    ⟨{ nopNext with pins := [.strap .auto, .steady] }, 0, [], [.auto], [.steady], rfl, rfl, by simp, by decide,
      by decide⟩,
    ⟨{ nopNext with pins := [.strap .auto, .reset] }, 0, [], [.auto], [.reset], rfl, rfl, by simp, by decide,
      by decide⟩⟩

/-- An idle time in AUTO, nothing offered in CMD, and a strap change where a cycle is due and a word is held. -/
theorem witness_AllStateIsKeptThroughAWait :
    (∃ (s : State) (k : Nat) (rest : List HostEvent), s.phase = .idle ∧ s.pinsQuiet = true ∧ s.cycleDue = false ∧
      s.host = .idle k :: rest ∧ s.cfg.mode = .auto) ∧
      (∃ s : State, s.phase = .idle ∧ s.pinsQuiet = true ∧ s.cycleDue = false ∧ s.host = [] ∧ s.cfg.mode = .cmd) ∧
      ∃ (s : State) (m : Mode) (rest : List PinEvent), s.pins = .strap m :: rest ∧ s.cycleDue = true ∧ s.host ≠ [] :=
  ⟨⟨{ inAuto demo with host := [.idle 5] }, 5, [], rfl, rfl, rfl, rfl, rfl⟩, ⟨demo, rfl, rfl, rfl, rfl, rfl⟩,
    ⟨{ inAuto nopNext with timer := .expired, pins := [.strap .cmd] }, .cmd, [], rfl, rfl, by decide⟩⟩

theorem witness_EveryStepKeepsTheInvariant : ∃ s t : State, s.Inv ∧ step s = .next t ∧ s.host ≠ [] :=
  ⟨{ demo with host := [.command 0x60000000] }, _, inv_of_checks (by decide +kernel), rfl, by decide⟩

end Sys2Proof.Tests
end

section
/-! PROOFS. The family 10_state.md: which steps write a register (`step_keeps`), the illegal-command registers `ill` and
`illc` (R22), and the register `rdata` (R21). -/

namespace Sys2Proof.Machine

/-! ### What a cycle and a command leave -/

namespace State

@[simp] theorem cycleOnce_rdata (s : State) : s.cycleOnce.rdata = s.rdata := by simp [cycleOnce]
@[simp] theorem cycleOnce_ill (s : State) : s.cycleOnce.ill = s.ill := by simp [cycleOnce]
@[simp] theorem cycleOnce_illc (s : State) : s.cycleOnce.illc = s.illc := by simp [cycleOnce]

end State

/-- No legal command sets `ill`: `raiseIllegal` alone does (10_state.md R22). -/
@[simp] theorem effect_ill (i : Instr) (s : State) : (effect i s).ill = s.ill := by
  cases i <;> simp [effect, State.scanReport_eq, State.appendByte]

@[simp] theorem effect_illc (i : Instr) (s : State) : (effect i s).illc = s.illc := by
  cases i <;> simp [effect, State.scanReport_eq, State.appendByte]

/-- Of the legal commands only PEEK writes `rdata` (10_state.md R21). -/
theorem effect_rdata_of_ne_peek {i : Instr} (hi : ∀ o, i ≠ .peek o) (s : State) : (effect i s).rdata = s.rdata := by
  cases i with
  | peek o => exact absurd rfl (hi o)
  | find => simp [effect, State.scanReport_eq]
  | append b => exact State.appendBytes_rdata [b]
  | nop | decode | frame | cycle => simp [effect]

/-! ### Who can write a register in a step -/

/-- A part of the state that neither the events at the ports nor the passing of time touch, as every register is. -/
def IgnoresPortsAndTime {α : Type} (f : State → α) : Prop :=
  ∀ (s : State) (strap : Mode) (timer : CadenceTimer) (host : List HostEvent) (pins : List PinEvent) (draws : Nat),
    f { s with strap := strap, timer := timer, host := host, pins := pins, draws := draws } = f s

theorem IgnoresPortsAndTime.passLatency {α : Type} {f : State → α} (hf : IgnoresPortsAndTime f) (s : State) :
    f s.passLatency = f s := by
  rw [State.passLatency_eq]
  exact hf ..

/-- A step that is no reset changes such a part of the state only through an autonomous cycle, the illegal-command
exception, or the legal command that stands first at the port. -/
theorem step_keeps {α : Type} {f : State → α} (hf : IgnoresPortsAndTime f) {s t : State} (h : step s = .next t)
    (hreset : ∀ rest, s.pins ≠ .reset :: rest)
    (hcycle : s.startsCycle → ∀ u, f u = f s → f u.cycleOnce = f s)
    (hillegal : ∀ c u, f u = f s → f (u.raiseIllegal c) = f s)
    (hcommand : ∀ i, s.offers i → ∀ u, f u = f s → f (effect i u) = f s) : f t = f s := by
  have hpast : f s.pastPins = f s := hf s s.strap s.timer s.host s.pins.tail s.draws
  have htaken (rest : List HostEvent) : f (s.pastPins.setHost rest) = f s :=
    hf s s.strap s.timer rest s.pins.tail s.draws
  cases step_cases h with
  | reset rest hh => exact absurd hh (hreset rest)
  | strap m rest hh ht => subst ht; exact hf s m s.timer s.host rest s.draws
  | auto hq hp hd ht =>
    subst ht
    rw [State.autoCycle_eq]
    exact (hf ..).trans (hcycle ⟨hp, hd, hq⟩ _ hpast)
  | illegal w rest c hq hp hd hh hw ht =>
    subst ht
    exact (hf.passLatency _).trans (hillegal c _ (htaken rest))
  | command w rest i hq hp hd hh hw ht =>
    subst ht
    exact (hf.passLatency _).trans (hcommand i ⟨w, rest, hh, hw⟩ _ (htaken rest))
  | idle k rest hq hp hd hh ht =>
    subst ht
    rw [State.elapse_eq]
    exact (hf ..).trans (htaken rest)
  | quiet hq hp hd hh ht =>
    subst ht
    rw [State.idleOut_eq]
    exact (hf ..).trans hpast

/-! ### `ill` and `illc` -/

/-- The two registers of the illegal-command exception (10_state.md R22). -/
def State.illRegs (s : State) : Bool × BitVec 3 := (s.ill, s.illc)

theorem State.illRegs_eq_iff {s t : State} : t.illRegs = s.illRegs ↔ t.ill = s.ill ∧ t.illc = s.illc := Prod.mk_inj

theorem illRegs_ignoresPortsAndTime : IgnoresPortsAndTime State.illRegs := fun _ _ _ _ _ _ => rfl

/-- Once `ill` is 1, a further illegal command leaves `ill` and `illc`. -/
theorem State.illRegs_raiseIllegal_of_ill {s : State} (h : s.ill = true) (c : IllegalCause) :
    (s.raiseIllegal c).illRegs = s.illRegs := by
  simp [State.illRegs, h]

/-- An operation runs only where the block is between two operations. -/
theorem phase_idle_of_operate {s t : State} (h : operate s = .next t) : s.phase = .idle := by
  unfold operate at h
  split at h <;> exact (unlessBusy_next h).1

/-- A step that takes an illegal word raises its cause. -/
theorem step_illegal {s t : State} {w : Word} {rest : List HostEvent} {c : IllegalCause} (hq : s.pinsQuiet = true)
    (hd : s.cycleDue = false) (hh : s.host = .command w :: rest) (hw : decodeCmd s.cfg.n s.cfg.mode w = .error c)
    (h : step s = .next t) : t = ((s.pastPins.setHost rest).raiseIllegal c).passLatency := by
  rw [step_quiet hq] at h
  rw [operate_illegal (s := s.pastPins) (phase_idle_of_operate h) hd hh hw] at h
  cases h
  rfl

/-- A step with a reset first at the pins is the reset. -/
theorem step_reset {s : State} {rest : List PinEvent} (hh : s.pins = .reset :: rest) :
    step s = .next (s.setPins rest).resetState := by
  simp [step, nextOperation, hh]

/-- Only a reset clears `ill`, and `illc` keeps its first cause until then (10_state.md R22). -/
theorem step_keeps_illRegs {s t : State} (h : step s = .next t) (hill : s.ill = true)
    (hreset : ∀ rest, s.pins ≠ .reset :: rest) : t.illRegs = s.illRegs := by
  refine step_keeps illRegs_ignoresPortsAndTime h hreset ?cycle ?illegal ?command
  case cycle =>
    intro _ u hu
    rw [← hu]
    simp [State.illRegs]
  case illegal =>
    intro c u hu
    have huill : u.ill = true := (State.illRegs_eq_iff.mp hu).1.trans hill
    exact (State.illRegs_raiseIllegal_of_ill huill c).trans hu
  case command =>
    intro i _ u hu
    rw [← hu]
    simp [State.illRegs]

/-- Settles O13: the update of `step_illegal`, stickiness by `step_keeps_illRegs`, and the reset values. -/
theorem illIsStickyAndKeepsTheFirstCause : Obligations.IllIsStickyAndKeepsTheFirstCause := by
  unfold Obligations.IllIsStickyAndKeepsTheFirstCause
  refine ⟨?update, ?sticky, ?reset, rfl, rfl⟩
  case update =>
    intro s t w rest c hq hd hh hw h
    obtain rfl := step_illegal hq hd hh hw h
    obtain ⟨hill, hillc⟩ := State.illRegs_eq_iff.mp
      (illRegs_ignoresPortsAndTime.passLatency ((s.pastPins.setHost rest).raiseIllegal c))
    rw [hill, hillc]
    exact ⟨rfl, fun hclear => by simp [hclear], fun hset => by simp [hset]⟩
  case sticky =>
    intro s t h hill hreset
    obtain ⟨ht, htc⟩ := State.illRegs_eq_iff.mp (step_keeps_illRegs h hill hreset)
    exact ⟨ht.trans hill, htc⟩
  case reset =>
    intro s t rest hh h
    rw [step_reset hh] at h
    cases h
    exact ⟨rfl, rfl⟩

/-! ### `rdata` -/

theorem rdata_ignoresPortsAndTime : IgnoresPortsAndTime State.rdata := fun _ _ _ _ _ _ => rfl

/-- PEEK at an offset of the ring is legal in both modes (30_encoding.md R51). -/
theorem illegalIn_peek {n : Nat} {o : Offset} (ho : o.toNat < n) (m : Mode) : (Instr.peek o).illegalIn n m = none := by
  simp [Instr.illegalIn, Instr.offsetInRange, Instr.allowedIn, ho]

/-- Every command but PEEK leaves `rdata`, legal or not. -/
theorem exec_rdata_of_ne_peek {i : Instr} {s t : State} (h : exec i s = .next t) (hi : ∀ o, i ≠ .peek o) :
    t.rdata = s.rdata := by
  obtain ⟨-, rfl⟩ | ⟨c, -, rfl⟩ := exec_cases h
  · exact effect_rdata_of_ne_peek hi s
  · exact State.raiseIllegal_rdata s c

theorem step_rdata_of_no_peek {s t : State} (h : step s = .next t) (hreset : ∀ rest, s.pins ≠ .reset :: rest)
    (hpeek : ∀ o, ¬ s.offers (.peek o)) : t.rdata = s.rdata := by
  refine step_keeps rdata_ignoresPortsAndTime h hreset ?cycle ?illegal ?command
  case cycle => exact fun _ u hu => (State.cycleOnce_rdata u).trans hu
  case illegal => exact fun c u hu => (State.raiseIllegal_rdata u c).trans hu
  case command =>
    intro i hoffers u hu
    have hi : ∀ o, i ≠ .peek o := by
      rintro o rfl
      exact hpeek o hoffers
    exact (effect_rdata_of_ne_peek hi u).trans hu

/-- Settles O55: PEEK's own value, then the frame of every other command, of every step, and of an autonomous cycle. -/
theorem onlyPeekWritesRdata : Obligations.OnlyPeekWritesRdata := by
  unfold Obligations.OnlyPeekWritesRdata
  refine ⟨?peek, fun i s t => exec_rdata_of_ne_peek, fun s t => step_rdata_of_no_peek, ?auto, rfl⟩
  case peek =>
    intro s t o ho h
    rw [exec_legal (illegalIn_peek ho _), effect_peek] at h
    cases h
    rfl
  case auto => exact fun s => (congrArg State.rdata s.autoCycle_eq).trans s.cycleOnce_rdata

end Sys2Proof.Machine
end

section
/-! PROOFS. The family 30_encoding.md: a word whose unused fields are zero is the word of a command (R50), the expansion of
the pseudo-instructions (R54), and the value of a big-endian field (R44). -/

namespace Sys2Proof

/-! ### The words that select a row -/

/-- Every opcode below 7 stands for a command (30_encoding.md R49). -/
theorem exists_instrOf_of_lt {op : BitVec 4} (h : op.toNat < 7) (off : Offset) (data : Byte) :
    ∃ i, instrOf op off data = some i := by
  interval_cases hop : op.toNat <;> simp [instrOf, hop]

/-- The command that the fields of a word stand for has the word's opcode. -/
theorem opcode_of_instrOf {op : BitVec 4} {off : Offset} {data : Byte} {i : Instr} (h : instrOf op off data = some i) :
    i.opcode = op := by
  apply BitVec.eq_of_toNat_eq
  unfold instrOf at h
  split at h <;> cases h
  all_goals simp [Instr.opcode, *]

/-- Fields with nothing in an unused one make up the word of the command they stand for (30_encoding.md R50). -/
theorem packFields_eq_encode {op : BitVec 4} {off : Offset} {rsv data : Byte} {i : Instr}
    (hi : instrOf op off data = some i) (hz : nonzeroUnusedField off rsv data i = false) :
    packFields op off rsv data = encode i := by
  obtain rfl := opcode_of_instrOf hi
  cases i with
  | append b | peek o | decode o => simp_all [instrOf, Instr.opcode, nonzeroUnusedField, encode]
  | nop | find | frame | cycle => simp_all [nonzeroUnusedField, encode, Instr.opcode]

theorem row_mem_opcodeTable (i : Instr) : i.row ∈ opcodeTable := by
  cases i <;> simp [opcodeTable, Instr.row]

/-- The word of every command selects its own row and has its opcode (30_encoding.md R49). -/
theorem encode_selects_row (i : Instr) : Laws.EncodeSelectsRow.Statement i := by
  cases i with
  | nop => exact Laws.EncodeSelectsRow.nop
  | append b => exact Laws.EncodeSelectsRow.append b
  | peek o => exact Laws.EncodeSelectsRow.peek o
  | find => exact Laws.EncodeSelectsRow.find
  | decode o => exact Laws.EncodeSelectsRow.decode o
  | frame => exact Laws.EncodeSelectsRow.frame
  | cycle => exact Laws.EncodeSelectsRow.cycle

/-- The check of cause 2, after that of cause 1 (30_encoding.md R51). -/
theorem decodeCmd_of_nonzeroUnusedField {n : Nat} {m : Mode} {w : Word} {i : Instr}
    (hi : instrOf (fieldOp w) (fieldOff w) (fieldData w) = some i)
    (hz : nonzeroUnusedField (fieldOff w) (fieldRsv w) (fieldData w) i = true) :
    decodeCmd n m w = .error .nonzeroUnused := by
  simp [decodeCmd, hi, hz]

/-- Settles O7: were the unused fields zero, the word would be that of its command and select that command's row. -/
theorem nonzeroUnusedFieldIsCause2 : Obligations.NonzeroUnusedFieldIsCause2 := by
  unfold Obligations.NonzeroUnusedFieldIsCause2
  intro n m w hop hrows
  obtain ⟨i, hi⟩ := exists_instrOf_of_lt hop (fieldOff w) (fieldData w)
  cases hz : nonzeroUnusedField (fieldOff w) (fieldRsv w) (fieldData w) i with
  | true => exact decodeCmd_of_nonzeroUnusedField hi hz
  | false =>
    have hw : w = encode i := (pack_fields w).symm.trans (packFields_eq_encode hi hz)
    obtain ⟨hsel, -⟩ := encode_selects_row i
    exact absurd (hw ▸ hsel) (hrows i.row (row_mem_opcodeTable i))

end Sys2Proof

namespace Sys2Proof.Machine

/-! ### The pseudo-instructions -/

namespace Assembler

/-- A program of one line assembles to the words of the commands the line expands to. -/
theorem assemble_singleton (n : Nat) (l : Line) : assemble n [l] = (expand n l).map (List.map encode) := by
  cases h : expand n l <;> simp [assemble, h]

@[simp] theorem appendCmd_toNat (b : Byte) : appendCmd b.toNat = some (.append b) := by
  simp [appendCmd, below, b.isLt]

@[simp] theorem word32_toNat (v : Word) : word32 v.toNat = some v := by
  simp [word32, below, v.isLt]

theorem expand_appends (n : Nat) (bs : List Byte) :
    expand n (.appends (bs.map BitVec.toNat)) = some (bs.map Instr.append) := by
  have h : appendCmd ∘ BitVec.toNat = fun b : Byte => pure (Instr.append b) := funext appendCmd_toNat
  rw [expand, List.mapM_map, h]
  exact List.mapM_pure

theorem expand_fill (n k : Nat) (b : Byte) :
    expand n (.fill k b.toNat) = some (List.replicate k (.append b)) := by
  simp [expand]

/-- PUSHFRAME appends the 20 bytes of the frame that carries the record (30_encoding.md R43). -/
theorem expand_pushFrame (n : Nat) (r : Record) :
    expand n (.pushFrame r.count.toNat r.x.toNat r.y.toNat r.z.toNat) = some (r.frameBytes.map Instr.append) := by
  simp [expand]

theorem assemble_pushFrame (n : Nat) (r : Record) :
    assemble n [.pushFrame r.count.toNat r.x.toNat r.y.toNat r.z.toNat] =
      some (r.frameBytes.map (fun b => encode (.append b))) := by
  simp [assemble_singleton, expand_pushFrame]

end Assembler

/-- Settles O10: what each pseudo-instruction expands to, and the rule's example as the frame of its record. -/
theorem pseudoInstructionsExpandToAppends : Obligations.PseudoInstructionsExpandToAppends := by
  unfold Obligations.PseudoInstructionsExpandToAppends
  refine ⟨?appends, ?fill, Assembler.assemble_pushFrame, ?exampleBytes⟩
  case appends =>
    intro n bs
    simp [Assembler.assemble_singleton, Assembler.expand_appends]
  case fill =>
    intro n k b
    simp [Assembler.assemble_singleton, Assembler.expand_fill]
  case exampleBytes =>
    exact Assembler.assemble_pushFrame 4096 ⟨42, 0x3FC00000, 0xC0100000, 0⟩

/-! ### Big-endian fields -/

/-- A byte in its place of a 32-bit word: no bit of it is shifted out. -/
theorem toNat_byte_shiftLeft {k : Nat} (hk : k ≤ 24) (b : Byte) : (b.setWidth 32 <<< k).toNat = b.toNat <<< k := by
  have hlt : b.toNat <<< k < 2 ^ 32 :=
    (Nat.shiftLeft_lt b.isLt).trans_le (Nat.pow_le_pow_right (by decide) (by omega))
  rw [BitVec.toNat_shiftLeft, BitVec.toNat_setWidth_of_le (by decide), Nat.mod_eq_of_lt hlt]

/-- The value of a big-endian field: below each byte stand only smaller places, so `or` adds (30_encoding.md R44). -/
theorem toNat_be32 (b0 b1 b2 b3 : Byte) :
    (be32 b0 b1 b2 b3).toNat = b0.toNat * 2 ^ 24 + b1.toNat * 2 ^ 16 + b2.toNat * 2 ^ 8 + b3.toNat := by
  have h1 := b1.isLt
  have h2 := b2.isLt
  have h3 := b3.isLt
  calc (be32 b0 b1 b2 b3).toNat
      = b0.toNat <<< 24 ||| (b1.toNat <<< 16 ||| (b2.toNat <<< 8 ||| b3.toNat)) := by
        simp only [be32, BitVec.toNat_or, Nat.or_assoc,
          toNat_byte_shiftLeft, Nat.reduceLeDiff, BitVec.toNat_setWidth_of_le]
    _ = b0.toNat <<< 24 + (b1.toNat <<< 16 + (b2.toNat <<< 8 + b3.toNat)) := by
        rw [← Nat.shiftLeft_add_eq_or_of_lt (a := b2.toNat) h3,
          ← Nat.shiftLeft_add_eq_or_of_lt (a := b1.toNat) (by omega),
          ← Nat.shiftLeft_add_eq_or_of_lt (a := b0.toNat) (by omega)]
    _ = b0.toNat * 2 ^ 24 + b1.toNat * 2 ^ 16 + b2.toNat * 2 ^ 8 + b3.toNat := by
        simp only [Nat.shiftLeft_eq, Nat.add_assoc]

/-- Settles O33: the value by `toNat_be32`, the examples by evaluation. -/
theorem bigEndianFieldValue : Obligations.BigEndianFieldValue :=
  ⟨toNat_be32, by decide, by decide⟩

end Sys2Proof.Machine
end

section
/-! PROOFS. The family 40_accumulator.md: windows modulo N (R56), the append loop turn by turn (R57), and the ring after
an append of any length (R58). -/

namespace Sys2Proof.Machine

namespace State

variable {s : State}

/-! ### Windows (R56) -/

/-- A window's offset is reduced modulo N. -/
theorem readWindow_mod (o k : Nat) : s.readWindow (o % s.cfg.n) k = s.readWindow o k :=
  List.map_congr_left fun i _ => byteAt_congr (Nat.mod_add_mod o s.cfg.n i)

/-- A window longer than N repeats the ring. -/
theorem readWindow_get_add_n {o k i : Nat} (h : i + s.cfg.n < k) :
    (s.readWindow o k)[i + s.cfg.n]? = (s.readWindow o k)[i]? := by
  rw [readWindow_get o k _ h, readWindow_get o k i (by omega), ← Nat.add_assoc]
  exact congrArg some (byteAt_congr (Nat.add_mod_right (o + i) s.cfg.n))

/-! ### One turn of the append loop (R57) -/

theorem byteAt_appendByte_pos (hm : s.mem.wf) (b : Byte) : (s.appendByte b).byteAt s.pos.toNat = b := by
  rw [byteAt_appendByte hm, if_pos rfl]

theorem byteAt_appendByte_of_ne (hm : s.mem.wf) (hp : s.pos.toNat < s.cfg.n) (b : Byte) {a : Nat} (ha : a < s.cfg.n)
    (hne : a ≠ s.pos.toNat) : (s.appendByte b).byteAt a = s.byteAt a := by
  rw [byteAt_appendByte hm, Nat.mod_eq_of_lt ha, Nat.mod_eq_of_lt hp, if_neg hne]

theorem appendByte_pos_toNat (hc : s.cfg.wf) (b : Byte) :
    (s.appendByte b).pos.toNat = (s.pos.toNat + 1) % s.cfg.n :=
  setPos_toNat (s := s.writeByte s.pos.toNat b) hc _

/-! ### Appends of any length (R58) -/

theorem byteAt_appendBytes_mod (bs : List Byte) (o : Nat) :
    (s.appendBytes bs).byteAt (o % s.cfg.n) = (s.appendBytes bs).byteAt o := by
  rw [← appendBytes_cfg bs, byteAt_mod]

/-- Of the list indices that land on an offset the largest gives its byte. -/
theorem byteAt_appendBytes_max (hs : s.Inv) (bs : List Byte) {j : Nat} (hj : j < bs.length)
    (hmax : ∀ j' < bs.length, (s.pos.toNat + j') % s.cfg.n = (s.pos.toNat + j) % s.cfg.n → j' ≤ j) :
    (s.appendBytes bs).byteAt ((s.pos.toNat + j) % s.cfg.n) = bs[j] := by
  rw [byteAt_appendBytes_mod]
  exact byteAt_appendBytes_last hs.cfg_wf hs.mem_wf hs.pos_lt bs j hj
    fun j' hj' hlt hland => absurd (hmax j' hj' hland) (Nat.not_le.mpr hlt)

end State

/-- Indices below N land on different offsets. -/
theorem eq_of_add_mod_eq {p n j j' : Nat} (hj : j < n) (hj' : j' < n) (h : (p + j) % n = (p + j') % n) : j = j' :=
  (Nat.ModEq.add_left_cancel' p h).eq_of_lt_of_lt hj hj'

/-! ### The obligations -/

/-- Settles O22: a window's byte is the ring byte at its offset modulo N, and so depends on that residue alone. -/
theorem windowReadsWrapModuloN : Obligations.WindowReadsWrapModuloN := by
  unfold Obligations.WindowReadsWrapModuloN
  intro s o k
  exact ⟨State.readWindow_length o k, State.readWindow_get o k, State.readWindow_mod o k, rfl,
    fun _ => State.readWindow_get_add_n⟩

/-- Settles O23: the state after the first turn of the loop is `s.appendByte b`. -/
theorem appendLoopsOverItsBytes : Obligations.AppendLoopsOverItsBytes := by
  unfold Obligations.AppendLoopsOverItsBytes
  intro s bs hs
  refine ⟨State.appendBytes_nil, fun b => ⟨s.appendByte b, State.appendBytes_cons b bs, ?stored, ?others, ?cursor,
    ?frame⟩, State.appendBytes_eq bs⟩
  case stored => exact State.byteAt_appendByte_pos hs.mem_wf b
  case others => exact fun a => State.byteAt_appendByte_of_ne hs.mem_wf hs.pos_lt b
  case cursor => exact State.appendByte_pos_toNat hs.cfg_wf b
  case frame => exact State.appendByte_eq b

/-- Settles O24: an append of at most N bytes lands on each offset once, so there each index is the largest of its
offset. -/
theorem appendLastByteOnAnOffsetWins : Obligations.AppendLastByteOnAnOffsetWins := by
  unfold Obligations.AppendLastByteOnAnOffsetWins
  intro s bs hs
  refine ⟨State.appendBytes_pos hs.cfg_wf hs.pos_lt bs, ?untouched, ?last, fun hlen => ?short⟩
  case untouched =>
    intro i hi hnone
    apply State.byteAt_appendBytes_of_not hs.cfg_wf hs.mem_wf hs.pos_lt bs i
    rwa [Nat.mod_eq_of_lt hi]
  case last =>
    rintro i j hj rfl hmax
    exact State.byteAt_appendBytes_max hs bs hj hmax
  case short =>
    have hinj : ∀ j < bs.length, ∀ j' < bs.length,
        (s.pos.toNat + j) % s.cfg.n = (s.pos.toNat + j') % s.cfg.n → j = j' :=
      fun j hj j' hj' => eq_of_add_mod_eq (hj.trans_le hlen) (hj'.trans_le hlen)
    exact ⟨hinj, fun j hj => State.byteAt_appendBytes_max hs bs hj fun j' hj' hland => (hinj j' hj' j hj hland).le⟩

end Sys2Proof.Machine
end

section
/-! PROOFS. The family 41_detector.md: the comparator's four lanes (R63), the exact scan (R66), and the distance of two
signature runs (R68). -/

namespace Sys2Proof.Machine

namespace State

variable {s : State}

/-! ### The comparator (R63) -/

theorem sigMatch_mod (o : Nat) : s.sigMatch (o % s.cfg.n) = s.sigMatch o := by
  have hlane (k : Nat) : s.byteAt (o % s.cfg.n + k) = s.byteAt (o + k) := byteAt_congr (Nat.mod_add_mod o s.cfg.n k)
  rw [Bool.eq_iff_iff, sigMatch_iff, sigMatch_iff, byteAt_mod, hlane, hlane, hlane]

/-- The first signature byte is none of the three after it, so no match begins inside a match. -/
theorem sigMatch_add_eq_false {o d : Nat} (hm : s.sigMatch o = true) (hd : 0 < d) (hd' : d < 4) :
    s.sigMatch (o + d) = false := by
  obtain ⟨-, h1, h2, h3⟩ := (sigMatch_iff s o).mp hm
  have hfirst : s.byteAt (o + d) ≠ 0x7F := by
    interval_cases d
    · rw [h1]; decide
    · rw [h2]; decide
    · rw [h3]; decide
  exact Bool.eq_false_iff.mpr fun h => hfirst ((sigMatch_iff s (o + d)).mp h).1

/-! ### Scan indices (R65) and the scan (R66) -/

theorem eq_of_scanIndex_eq {n p a b : Nat} (ha : a < n) (hb : b < n) (h : scanIndex n p a = scanIndex n p b) :
    a = b := by
  rw [← add_scanIndex (p := p) ha, h, add_scanIndex hb]

/-- Offsets lie as far apart, modulo N, as their scan indices. -/
theorem add_mod_of_scanIndex_eq_add {n p a b d : Nat} (ha : a < n) (hb : b < n)
    (h : scanIndex n p b = scanIndex n p a + d) : (a + d) % n = b := by
  calc (a + d) % n
      = ((p + scanIndex n p a) % n + d) % n := by rw [add_scanIndex ha]
    _ = (p + scanIndex n p b) % n := by rw [Nat.mod_add_mod, Nat.add_assoc, h]
    _ = b := add_scanIndex hb

/-- The offsets of scan index below `k` are the first `k` start offsets. -/
theorem forall_scanIndex_lt_iff {n p k : Nat} (hk : k ≤ n) (P : Nat → Prop) :
    (∀ o < n, scanIndex n p o < k → P o) ↔ ∀ j < k, P ((p + j) % n) := by
  constructor
  · intro h j hj
    have hjn : j < n := hj.trans_le hk
    exact h _ (Nat.mod_lt _ (Nat.zero_lt_of_lt hjn)) (by rwa [scanIndex_add hjn])
  · intro h o ho hlt
    rw [← add_scanIndex (p := p) ho]
    exact h _ hlt

theorem findStart_eq_some_iff_scanIndex {p o : Nat} :
    s.findStart p = some o ↔
      o < s.cfg.n ∧ s.sigMatch o = true ∧ scanIndex s.cfg.n p o < s.cfg.n - 3 ∧
        ∀ o' < s.cfg.n, scanIndex s.cfg.n p o' < scanIndex s.cfg.n p o → s.sigMatch o' = false := by
  rw [findStart_eq_some]
  constructor
  · rintro ⟨j, hj, rfl, hm, hnone⟩
    have hjn : j < s.cfg.n := by omega
    rw [scanIndex_add hjn]
    exact ⟨Nat.mod_lt _ (by omega), hm, hj, (forall_scanIndex_lt_iff hjn.le _).mpr hnone⟩
  · rintro ⟨ho, hm, hj, hnone⟩
    exact ⟨_, hj, (add_scanIndex ho).symm, hm, (forall_scanIndex_lt_iff (by omega) _).mp hnone⟩

theorem findStart_eq_none_iff_scanIndex {p : Nat} :
    s.findStart p = none ↔ ∀ o < s.cfg.n, scanIndex s.cfg.n p o < s.cfg.n - 3 → s.sigMatch o = false :=
  findStart_eq_none.trans (forall_scanIndex_lt_iff (Nat.sub_le _ _) (s.sigMatch · = false)).symm

/-! ### Signature runs (R68) -/

/-- A match later in the scan begins at least 4 scan indices later. -/
theorem scanIndex_add_four_le {p a b : Nat} (ha : a < s.cfg.n) (hb : b < s.cfg.n) (hma : s.sigMatch a = true)
    (hmb : s.sigMatch b = true) (hlt : scanIndex s.cfg.n p a < scanIndex s.cfg.n p b) :
    scanIndex s.cfg.n p a + 4 ≤ scanIndex s.cfg.n p b := by
  by_contra hnear
  obtain ⟨d, hd⟩ := Nat.exists_eq_add_of_le hlt.le
  have hfalse : s.sigMatch (a + d) = false := sigMatch_add_eq_false hma (by omega) (by omega)
  rw [← sigMatch_mod, add_mod_of_scanIndex_eq_add ha hb hd, hmb] at hfalse
  cases hfalse

end State

/-! ### The obligations -/

/-- Settles O28: a lane's ring byte is the byte stored at its offset modulo N. -/
theorem signatureMatchIsFourByteEqualities : Obligations.SignatureMatchIsFourByteEqualities := by
  unfold Obligations.SignatureMatchIsFourByteEqualities
  exact State.sigMatch_iff

/-- Settles O29: the scan by scan index; as N is at least 4, the indices at most N - 4 are those below N - 3. -/
theorem scanIsExact : Obligations.ScanIsExact := by
  unfold Obligations.ScanIsExact
  intro s p hwf
  obtain ⟨hn, -⟩ := hwf
  have hrange (j : Nat) : j ≤ s.cfg.n - 4 ↔ j < s.cfg.n - 3 := by omega
  simp only [hrange]
  exact ⟨fun _ => State.findStart_eq_some_iff_scanIndex, State.findStart_eq_none_iff_scanIndex⟩

/-- Settles O31: different offsets have different scan indices, and the later match begins 4 after the earlier. -/
theorem signatureRunsDoNotOverlap : Obligations.SignatureRunsDoNotOverlap := by
  unfold Obligations.SignatureRunsDoNotOverlap
  refine ⟨by decide, by decide, by decide, fun s p a b ha hb hma hmb hne => ?distance⟩
  case distance =>
    have hindex : scanIndex s.cfg.n p a ≠ scanIndex s.cfg.n p b := fun h => hne (State.eq_of_scanIndex_eq ha hb h)
    rcases Nat.lt_or_gt_of_ne hindex with hlt | hgt
    · exact .inl (State.scanIndex_add_four_le ha hb hma hmb hlt)
    · exact .inr (State.scanIndex_add_four_le hb ha hmb hma hgt)

end Sys2Proof.Machine
end

section
/-! PROOFS. The family 42_decoder.md: a record spelled out in the frame layout decodes to itself (R73, R74). -/

namespace Sys2Proof.Machine

/-- The four bytes of a word, read big-endian, are the word. -/
theorem fieldAt_beBytes (v : Word) : fieldAt (beBytes v) 0 = v := by
  apply BitVec.eq_of_toNat_eq
  have hbytes : (fieldAt (beBytes v) 0).toNat =
      (v.extractLsb' 24 8).toNat * 2 ^ 24 + (v.extractLsb' 16 8).toNat * 2 ^ 16 +
        (v.extractLsb' 8 8).toNat * 2 ^ 8 + (v.extractLsb' 0 8).toNat :=
    toNat_be32 _ _ _ _
  have hv : v.toNat < 2 ^ 32 := v.isLt
  simp only [hbytes, BitVec.extractLsb'_toNat, Nat.shiftRight_eq_div_pow]
  omega

/-- Each field of a record stands in its frame at the field's offset (30_encoding.md R43). -/
theorem fieldAt_frameBytes (r : Record) :
    fieldAt r.frameBytes 4 = r.count ∧ fieldAt r.frameBytes 8 = r.x ∧ fieldAt r.frameBytes 12 = r.y ∧
      fieldAt r.frameBytes 16 = r.z :=
  ⟨fieldAt_beBytes r.count, fieldAt_beBytes r.x, fieldAt_beBytes r.y, fieldAt_beBytes r.z⟩

/-- A window that holds the frame of a record decodes to that record. -/
theorem State.decodeFrame_of_frameBytes {s : State} {fs : Nat} {r : Record}
    (hw : s.readWindow fs Config.frameLen = r.frameBytes) : s.decodeFrame fs = r := by
  obtain ⟨hcount, hx, hy, hz⟩ := fieldAt_frameBytes r
  simp only [decodeFrame, hw, hcount, hx, hy, hz]

/-! ### The obligation -/

/-- Settles O35: the window is the frame of `r`, whose fields are read back from their four bytes each. -/
theorem frameRoundTripIsExact : Obligations.FrameRoundTripIsExact := by
  unfold Obligations.FrameRoundTripIsExact
  intro s fs r hw
  exact State.decodeFrame_of_frameBytes hw

end Sys2Proof.Machine
end

section
/-! PROOFS. The family 43_framing_fsm.md: the cursor and the published record after a match (R83), and the bytes that the
batch of the next cycle overwrites (R91). -/

namespace Sys2Proof.Machine

namespace State

variable {s : State} {fs : Nat}

/-! ### A match (R83) -/

theorem frameOnce_pos_toNat (hc : s.cfg.wf) (h : s.findStart s.pos.toNat = some fs) :
    s.frameOnce.pos.toNat = (fs + 20) % s.cfg.n := by
  rw [frameOnce_some h]
  exact setPos_toNat hc (fs + 20)

theorem frameOnce_pub_of_match (h : s.findStart s.pos.toNat = some fs) :
    s.frameOnce.pub = s.pub ++ [s.decodeFrame fs] := by
  rw [frameOnce_some h]

theorem cycleOnce_pos_toNat (hc : s.cfg.wf) (h : s.ingest.findStart s.ingest.pos.toNat = some fs) :
    s.cycleOnce.pos.toNat = (fs + 20) % s.cfg.n := by
  rw [cycleOnce, frameOnce_pos_toNat (by rwa [ingest_cfg]) h, ingest_cfg]

theorem cycleOnce_pub_of_match (h : s.ingest.findStart s.ingest.pos.toNat = some fs) :
    s.cycleOnce.pub = s.pub ++ [s.ingest.decodeFrame fs] := by
  rw [cycleOnce, frameOnce_pub_of_match h, ingest_pub]

/-! ### The ring after the ingest of a cycle (R79) -/

theorem ingest_mem_wf (hm : s.mem.wf) : s.ingest.mem.wf := by
  rw [ingest_eq, setPhase_mem]
  exact appendBytes_mem_wf (by rwa [afterRead_mem]) s.batch

theorem byteAt_ingest (a : Nat) : s.ingest.byteAt a = (s.afterRead.appendBytes s.batch).byteAt a := by
  rw [ingest_eq]
  rfl

/-- A batch is no longer than the ring, so none of its bytes lands on another one of them. -/
theorem byteAt_ingest_batch (hc : s.cfg.wf) (hm : s.mem.wf) (hp : s.pos.toNat < s.cfg.n) {j : Nat}
    (hj : j < s.batch.length) : s.ingest.byteAt (s.pos.toNat + j) = s.batch[j] := by
  have hdistinct : ∀ j' < s.batch.length, j < j' → (s.pos.toNat + j') % s.cfg.n ≠ (s.pos.toNat + j) % s.cfg.n :=
    fun j' hj' hlt hland =>
      hlt.ne' (eq_of_add_mod_eq (hj'.trans_le s.batch_length) (hj.trans_le s.batch_length) hland)
  rw [byteAt_ingest]
  simpa using byteAt_appendBytes_last (s := s.afterRead) (by simpa) (by simpa) (by simpa) s.batch j hj (by simpa)

/-! ### The cycle after a match (R91) -/

/-- The scan and what follows it leave the ring, and the batch of the next cycle begins at the cursor, `(fs + 20) mod N`. -/
theorem byteAt_ingest_after_match (hc : s.cfg.wf) (hm : s.mem.wf) (h : s.findStart s.pos.toNat = some fs) {j : Nat}
    (hj : j < s.frameOnce.batch.length) :
    s.frameOnce.byteAt ((fs + 20) % s.cfg.n + j) = s.byteAt ((fs + 20) % s.cfg.n + j) ∧
      s.frameOnce.ingest.byteAt ((fs + 20) % s.cfg.n + j) = s.frameOnce.batch[j] := by
  have hpos : s.frameOnce.pos.toNat = (fs + 20) % s.cfg.n := frameOnce_pos_toNat hc h
  have hlt : s.frameOnce.pos.toNat < s.frameOnce.cfg.n := by
    rw [hpos, frameOnce_cfg]
    exact Nat.mod_lt _ (Nat.zero_lt_of_lt hc.1)
  refine ⟨byteAt_eq_of s.frameOnce_mem (by rw [frameOnce_cfg]) _, ?batch⟩
  case batch =>
    rw [← hpos]
    exact byteAt_ingest_batch (by rwa [frameOnce_cfg]) (by rwa [frameOnce_mem]) hlt hj

end State

/-! ### FRAME and CYCLE in CMD mode -/

theorem exec_frame_cmd {s : State} (h : s.cfg.mode = .cmd) : exec .frame s = .next s.frameOnce :=
  exec_legal (h ▸ illegalIn_cmd rfl)

theorem exec_cycle_cmd {s : State} (h : s.cfg.mode = .cmd) : exec .cycle s = .next s.cycleOnce :=
  exec_legal (h ▸ illegalIn_cmd rfl)

/-! ### The obligations -/

/-- Settles O40: FRAME is one `frameOnce`; CYCLE and the cycle of AUTO are `frameOnce` after the ingest. -/
theorem cursorAfterAMatch : Obligations.CursorAfterAMatch := by
  unfold Obligations.CursorAfterAMatch
  refine ⟨fun s fs hs hmode => ⟨fun h => ?frame, fun h => ?cycle⟩, fun s fs hs h => ?auto⟩
  case frame =>
    exact ⟨_, exec_frame_cmd hmode, State.frameOnce_pos_toNat hs.cfg_wf h, State.frameOnce_pub_of_match h⟩
  case cycle =>
    exact ⟨_, exec_cycle_cmd hmode, State.cycleOnce_pos_toNat hs.cfg_wf h, State.cycleOnce_pub_of_match h⟩
  case auto =>
    rw [State.autoCycle_eq]
    exact ⟨State.cycleOnce_pos_toNat hs.cfg_wf h, State.cycleOnce_pub_of_match h⟩

/-- Settles O50: FRAME and CYCLE both end in the `frameOnce` of `u`. The next batch overwrites as many bytes as it has, so
those before the write boundary among them. -/
theorem bytesAfterAConsumedFrameAreOverwritten : Obligations.BytesAfterAConsumedFrameAreOverwritten := by
  unfold Obligations.BytesAfterAConsumedFrameAreOverwritten
  intro s u t fs hs hmode hexec hfind j hj _
  rcases hexec with ⟨hframe, rfl⟩ | ⟨hcycle, rfl⟩
  case inl =>
    rw [exec_frame_cmd hmode] at hframe
    cases hframe
    exact State.byteAt_ingest_after_match hs.cfg_wf hs.mem_wf hfind hj
  case inr =>
    rw [exec_cycle_cmd hmode] at hcycle
    cases hcycle
    have hc : s.ingest.cfg.wf := s.ingest_cfg ▸ hs.cfg_wf
    rw [← s.ingest_cfg]
    exact State.byteAt_ingest_after_match hc (State.ingest_mem_wf hs.mem_wf) hfind hj

end Sys2Proof.Machine
end

section
/-! PROOFS. The family 60_exceptions.md: the checks of a command word, in the order of the causes (R99 with
30_encoding.md R51). -/

namespace Sys2Proof

/-! ### Cause 1: the reserved opcodes -/

theorem instrOf_eq_none {op : BitVec 4} (h : 7 ≤ op.toNat) (off : Offset) (data : Byte) : instrOf op off data = none := by
  have := op.isLt
  interval_cases hop : op.toNat <;> simp [instrOf, hop]

theorem decodeCmd_of_reservedOp {n : Nat} {m : Mode} {w : Word} (h : 7 ≤ (fieldOp w).toNat) :
    decodeCmd n m w = .error .reservedOp := by
  simp [decodeCmd, instrOf_eq_none h]

/-! ### Cause 2: the row of a command, as a check of the word's fields -/

/-- The match of a row is its opcode, every other field zero. -/
theorem row_pattern (i : Instr) : i.row.pattern = packFields i.opcode 0 0 0 := by
  cases i <;> simp [Instr.row, Instr.opcode, packFields]

/-- A row's mask compares the word field by field: OP and RSV in full, OFF and DATA where they have to be zero. -/
theorem row_selects_iff_of_mask {i : Instr} {w : Word} {moff : Offset} {mdata : Byte}
    (hm : i.row.mask = packFields 15 moff 0xFF mdata) :
    i.row.selects w ↔
      fieldOp w = i.opcode ∧ fieldRsv w = 0 ∧ fieldOff w &&& moff = 0 ∧ fieldData w &&& mdata = 0 := by
  have hop : fieldOp w &&& 15 = fieldOp w := BitVec.and_allOnes
  have hrsv : fieldRsv w &&& 0xFF = fieldRsv w := BitVec.and_allOnes
  rw [OpcodeRow.selects, hm, row_pattern, ← pack_fields w, packFields_and, packFields_inj, pack_fields, hop, hrsv,
    and_left_comm (a := fieldRsv w = 0)]

/-- A word selects a command's row when it has the command's opcode and nothing in a field the command does not use
(30_encoding.md R49, R50). -/
theorem row_selects_iff {i : Instr} {w : Word} :
    i.row.selects w ↔
      fieldOp w = i.opcode ∧ nonzeroUnusedField (fieldOff w) (fieldRsv w) (fieldData w) i = false := by
  have hoff : fieldOff w &&& 0xFFF#12 = fieldOff w := BitVec.and_allOnes
  have hdata : fieldData w &&& 0xFF#8 = fieldData w := BitVec.and_allOnes
  cases i with
  | nop | find | frame | cycle =>
    rw [row_selects_iff_of_mask (moff := 0xFFF) (mdata := 0xFF) rfl]
    simp [hoff, hdata, nonzeroUnusedField, and_assoc]
  | append b =>
    rw [row_selects_iff_of_mask (moff := 0xFFF) (mdata := 0) rfl]
    simp [hoff, nonzeroUnusedField]
  | peek o | decode o =>
    rw [row_selects_iff_of_mask (moff := 0) (mdata := 0xFF) rfl]
    simp [hdata, nonzeroUnusedField]

theorem exists_row_of_mem_opcodeTable {r : OpcodeRow} (h : r ∈ opcodeTable) : ∃ i : Instr, r = i.row := by
  simp only [opcodeTable, List.mem_cons, List.not_mem_nil, or_false] at h
  obtain h | h | h | h | h | h | h := h <;> exact ⟨_, h⟩

/-- The opcode of a command stands for a command of the same kind: it differs in its operand only, and so leaves the same
fields unused. -/
theorem exists_instrOf_opcode (i : Instr) (off : Offset) (data : Byte) :
    ∃ j, instrOf i.opcode off data = some j ∧
      ∀ rsv, nonzeroUnusedField off rsv data j = nonzeroUnusedField off rsv data i := by
  cases i <;> exact ⟨_, rfl, fun _ => rfl⟩

/-- A word that selects a row passes the checks of the causes 1 and 2. -/
theorem exists_instrOf_of_selects {w : Word} (h : ∃ r ∈ opcodeTable, r.selects w) :
    ∃ i, instrOf (fieldOp w) (fieldOff w) (fieldData w) = some i ∧
      nonzeroUnusedField (fieldOff w) (fieldRsv w) (fieldData w) i = false := by
  obtain ⟨r, hr, hsel⟩ := h
  obtain ⟨i, rfl⟩ := exists_row_of_mem_opcodeTable hr
  obtain ⟨hop, hz⟩ := row_selects_iff.mp hsel
  obtain ⟨j, hj, hsame⟩ := exists_instrOf_opcode i (fieldOff w) (fieldData w)
  exact ⟨j, hop ▸ hj, (hsame _).trans hz⟩

/-! ### Causes 3 and 4: the checks of a command that is well encoded -/

/-- The check of cause 3, on the fields: only PEEK and DECODE have an offset. -/
theorem offsetInRange_instrOf {n : Nat} {op : BitVec 4} {off : Offset} {data : Byte} {i : Instr}
    (hi : instrOf op off data = some i) :
    i.offsetInRange n = true ↔ ¬ ((op = 2 ∨ op = 4) ∧ n ≤ off.toNat) := by
  obtain rfl := opcode_of_instrOf hi
  cases i with
  | nop | append b | find | frame | cycle => simp [Instr.offsetInRange, Instr.opcode]
  | peek o | decode o =>
    obtain rfl : off = o := by simpa [instrOf, Instr.opcode] using hi
    simp [Instr.offsetInRange, Instr.opcode]

/-- The check of cause 4, on the opcode. -/
theorem allowedIn_iff {m : Mode} {i : Instr} : i.allowedIn m = true ↔ m = .cmd ∨ i.opcode = 0 ∨ i.opcode = 2 := by
  cases i <;> simp [Instr.allowedIn, Instr.opcode]

theorem illegalIn_of_not_offsetInRange {n : Nat} {m : Mode} {i : Instr} (h : ¬ i.offsetInRange n = true) :
    i.illegalIn n m = some .offRange := by
  simp [Instr.illegalIn, h]

theorem illegalIn_of_not_allowedIn {n : Nat} {m : Mode} {i : Instr} (ho : i.offsetInRange n = true)
    (h : ¬ i.allowedIn m = true) : i.illegalIn n m = some .modeForbidden := by
  simp [Instr.illegalIn, ho, h]

section WellEncoded

variable {n : Nat} {m : Mode} {w : Word} {i : Instr} (hi : instrOf (fieldOp w) (fieldOff w) (fieldData w) = some i)
  (hz : nonzeroUnusedField (fieldOff w) (fieldRsv w) (fieldData w) i = false)

include hi hz

theorem decodeCmd_of_illegalIn {c : IllegalCause} (h : i.illegalIn n m = some c) : decodeCmd n m w = .error c := by
  simp [decodeCmd, hi, hz, h]

theorem decodeCmd_of_legal (h : i.illegalIn n m = none) : decodeCmd n m w = .ok i := by
  simp [decodeCmd, hi, hz, h]

end WellEncoded

/-- Settles O8: cause 1 by the opcode, cause 2 by `nonzeroUnusedFieldIsCause2`; a word that selects a row is left with the
two checks of `Instr.illegalIn`, which `offsetInRange_instrOf` and `allowedIn_iff` read off its fields. -/
theorem firstFailingCheckIsTheCause : Obligations.FirstFailingCheckIsTheCause := by
  unfold Obligations.FirstFailingCheckIsTheCause
  refine ⟨fun n m w => ⟨decodeCmd_of_reservedOp, nonzeroUnusedFieldIsCause2 n m w, ?offset, ?mode, ?legal⟩, by decide,
    by decide⟩
  all_goals
    intro hsel
    obtain ⟨i, hi, hz⟩ := exists_instrOf_of_selects hsel
    have hoff := offsetInRange_instrOf (n := n) hi
    have hallowed := allowedIn_iff (m := m) (i := i)
    rw [opcode_of_instrOf hi] at hallowed
  case offset =>
    intro hop hn
    have hbad : ¬ i.offsetInRange n = true := fun h => hoff.mp h ⟨hop, hn⟩
    exact decodeCmd_of_illegalIn hi hz (illegalIn_of_not_offsetInRange hbad)
  case mode =>
    rintro hgood rfl h0 h2
    have hbad : ¬ i.allowedIn .auto = true := mt hallowed.mp (not_or.mpr ⟨nofun, not_or.mpr ⟨h0, h2⟩⟩)
    exact decodeCmd_of_illegalIn hi hz (illegalIn_of_not_allowedIn (hoff.mpr hgood) hbad)
  case legal =>
    intro hgood hmode
    have hwf : i.wf n m = true := by simp [Instr.wf, hoff.mpr hgood, hallowed.mpr hmode]
    exact ⟨i, decodeCmd_of_legal hi hz (illegalIn_eq_none.mpr hwf)⟩

end Sys2Proof
end

section
/-! PROOFS. The family 70_reset_and_hazards.md: MODE is sampled from the strap at a reset and kept until the next one (R110). -/

namespace Sys2Proof.Machine

@[simp] theorem State.cycleOnce_cfg (s : State) : s.cycleOnce.cfg = s.cfg := by simp [State.cycleOnce]

theorem cfg_ignoresPortsAndTime : IgnoresPortsAndTime State.cfg := fun _ _ _ _ _ _ => rfl

/-- Only a reset changes the configuration: no command, legal or not, and no autonomous cycle does. -/
theorem step_keeps_cfg {s t : State} (h : step s = .next t) (hreset : ∀ rest, s.pins ≠ .reset :: rest) :
    t.cfg = s.cfg := by
  refine step_keeps cfg_ignoresPortsAndTime h hreset ?cycle ?illegal ?command
  case cycle => exact fun _ u hu => (State.cycleOnce_cfg u).trans hu
  case illegal => exact fun c u hu => (State.raiseIllegal_cfg u c).trans hu
  case command => exact fun i _ u hu => (effect_cfg i u).trans hu

/-- The `mode` pin moves whatever the block does, from any phase (70_reset_and_hazards.md R110). -/
theorem step_strap {s : State} {m : Mode} {rest : List PinEvent} (hh : s.pins = .strap m :: rest) :
    step s = .next ((s.setPins rest).setStrap m) := by
  simp [step, nextOperation, hh]

/-- Settles O3: the sample by `step_reset`, MODE kept as part of the configuration by `step_keeps_cfg`, and the change of the
strap by `step_strap`. -/
theorem modeIsSampledOnlyAtReset : Obligations.ModeIsSampledOnlyAtReset := by
  unfold Obligations.ModeIsSampledOnlyAtReset
  refine ⟨fun s t h => ⟨?sampled, ?kept⟩, fun s m rest => step_strap⟩
  case sampled =>
    intro rest hh
    rw [step_reset hh] at h
    cases h
    rfl
  case kept => exact fun hreset => congrArg Config.mode (step_keeps_cfg h hreset)

end Sys2Proof.Machine
end

section
/-! PROOFS. The rest of 30_encoding.md: decode and encode are inverse to each other on the legal commands (sections 2
and 3), a word selects at most one row (R49), the operands' ranges (R53), and the causes 3 and 4 as `exec` raises them
(R51). -/

namespace Sys2Proof

/-! ### Decode and encode -/

/-- A word decodes to a command when its fields stand for it and the checks of the causes 2 to 4 pass. -/
theorem decodeCmd_eq_ok_iff {n : Nat} {m : Mode} {w : Word} {i : Instr} :
    decodeCmd n m w = .ok i ↔
      instrOf (fieldOp w) (fieldOff w) (fieldData w) = some i ∧
        nonzeroUnusedField (fieldOff w) (fieldRsv w) (fieldData w) i = false ∧ i.illegalIn n m = none := by
  constructor
  · intro h
    have hlegal := decodeCmd_ok_legal h
    unfold decodeCmd at h
    split at h
    · cases h
    · rename_i j hj
      split at h
      · cases h
      · rename_i hz
        split at h
        · cases h
        · cases h
          exact ⟨hj, Bool.eq_false_iff.mpr hz, hlegal⟩
  · rintro ⟨hi, hz, hlegal⟩
    exact decodeCmd_of_legal hi hz hlegal

theorem instrOf_encode (i : Instr) :
    instrOf (fieldOp (encode i)) (fieldOff (encode i)) (fieldData (encode i)) = some i := by
  cases i <;> simp [encode, instrOf]

theorem nonzeroUnusedField_encode (i : Instr) :
    nonzeroUnusedField (fieldOff (encode i)) (fieldRsv (encode i)) (fieldData (encode i)) i = false := by
  cases i <;> simp [encode, nonzeroUnusedField]

theorem decodeCmd_encode {n : Nat} {m : Mode} {i : Instr} (h : i.wf n m = true) : decodeCmd n m (encode i) = .ok i :=
  decodeCmd_eq_ok_iff.mpr ⟨instrOf_encode i, nonzeroUnusedField_encode i, illegalIn_eq_none.mpr h⟩

theorem encode_of_decodeCmd {n : Nat} {m : Mode} {w : Word} {i : Instr} (h : decodeCmd n m w = .ok i) :
    encode i = w := by
  obtain ⟨hi, hz, -⟩ := decodeCmd_eq_ok_iff.mp h
  rw [← packFields_eq_encode hi hz, pack_fields]

/-- Settles O4: the fields of the word of `i` stand for `i`, and no unused field is nonzero. -/
theorem decodeOfEncodeIsTheCommand : Obligations.DecodeOfEncodeIsTheCommand := by
  unfold Obligations.DecodeOfEncodeIsTheCommand
  exact fun n m i => decodeCmd_encode

/-- Settles O5: a word that passes the check of cause 2 is its four fields, which are those of the command's word. -/
theorem encodeOfDecodedWordIsTheWord : Obligations.EncodeOfDecodedWordIsTheWord := by
  unfold Obligations.EncodeOfDecodedWordIsTheWord
  exact fun n m w i h => ⟨encode_of_decodeCmd h, illegalIn_eq_none.mp (decodeCmd_ok_legal h)⟩

/-! ### The rows of the opcode table (R49) -/

/-- The table is in order of opcode. -/
theorem opcodeTable_get_opcode (i : Instr) : opcodeTable[i.opcode.toNat]? = some i.row := by
  cases i <;> rfl

theorem row_eq_of_opcode_eq {i j : Instr} (h : i.opcode = j.opcode) : i.row = j.row := by
  apply Option.some_injective
  rw [← opcodeTable_get_opcode i, h, opcodeTable_get_opcode]

/-- A word selects one row at most, since every row it selects has the word's opcode. -/
theorem row_eq_of_selects {w : Word} {r r' : OpcodeRow} (hr : r ∈ opcodeTable) (hr' : r' ∈ opcodeTable)
    (h : r.selects w) (h' : r'.selects w) : r = r' := by
  obtain ⟨i, rfl⟩ := exists_row_of_mem_opcodeTable hr
  obtain ⟨j, rfl⟩ := exists_row_of_mem_opcodeTable hr'
  obtain ⟨hi, -⟩ := row_selects_iff.mp h
  obtain ⟨hj, -⟩ := row_selects_iff.mp h'
  exact row_eq_of_opcode_eq (hi.symm.trans hj)

theorem row_selects_of_decodeCmd {n : Nat} {m : Mode} {w : Word} {i : Instr} (h : decodeCmd n m w = .ok i) :
    i.row.selects w := by
  obtain ⟨hi, hz, -⟩ := decodeCmd_eq_ok_iff.mp h
  exact row_selects_iff.mpr ⟨(opcode_of_instrOf hi).symm, hz⟩

/-- Every 12-bit offset is an offset of this hardware's ring. -/
theorem offsetInRange_capacity (i : Instr) : i.offsetInRange 4096 = true := by
  cases i with
  | peek o | decode o => exact decide_eq_true o.isLt
  | nop | append b | find | frame | cycle => rfl

/-- On this hardware in CMD mode only the causes 1 and 2 can arise: a word decodes when it selects a row. -/
theorem exists_decodeCmd_capacity_iff {w : Word} :
    (∃ i, decodeCmd 4096 .cmd w = .ok i) ↔ ∃ r ∈ opcodeTable, r.selects w := by
  constructor
  · rintro ⟨i, h⟩
    exact ⟨i.row, row_mem_opcodeTable i, row_selects_of_decodeCmd h⟩
  · intro hsel
    obtain ⟨i, hi, hz⟩ := exists_instrOf_of_selects hsel
    exact ⟨i, decodeCmd_of_legal hi hz (illegalIn_cmd (offsetInRange_capacity i))⟩

/-- The operand of a command is its field of the word (30_encoding.md R48). -/
theorem operand_of_decodeCmd {n : Nat} {m : Mode} {w : Word} {i : Instr} (h : decodeCmd n m w = .ok i) :
    (∀ b, i = .append b → b = fieldData w) ∧ (∀ o, i = .peek o ∨ i = .decode o → o = fieldOff w) := by
  rw [← encode_of_decodeCmd h]
  constructor
  · rintro b rfl
    simp [encode]
  · rintro o (rfl | rfl) <;> simp [encode]

/-- Settles O6: rows and words by their opcode and unused fields, operands by the word of the command. -/
theorem wordSelectsInstructionByMaskAndMatch : Obligations.WordSelectsInstructionByMaskAndMatch := by
  unfold Obligations.WordSelectsInstructionByMaskAndMatch
  refine ⟨fun w => exists_decodeCmd_capacity_iff, fun w r hr r' hr' => row_eq_of_selects hr hr', fun w i h => ?fields⟩
  case fields =>
    have hsel := row_selects_of_decodeCmd h
    exact ⟨hsel, (row_selects_iff.mp hsel).1, operand_of_decodeCmd h⟩

/-- Settles O9: the seven words evaluated. -/
theorem writtenOutWordsDecode : Obligations.WrittenOutWordsDecode := by
  unfold Obligations.WrittenOutWordsDecode
  decide

end Sys2Proof

namespace Sys2Proof.Machine

/-! ### The assembler's operands (R53) -/

namespace Assembler

theorem setWidth_ofNat_of_lt {k v : Nat} (hk : k ≤ 32) (hv : v < 2 ^ k) :
    (BitVec.ofNat k v).setWidth 32 = BitVec.ofNat 32 v := by
  apply BitVec.eq_of_toNat_eq
  rw [BitVec.toNat_setWidth_of_le hk, BitVec.toNat_ofNat, BitVec.toNat_ofNat, Nat.mod_eq_of_lt hv,
    Nat.mod_eq_of_lt (hv.trans_le (Nat.pow_le_pow_right (by decide) hk))]

theorem encode_append_ofNat {v : Nat} (hv : v < 256) :
    encode (.append (BitVec.ofNat 8 v)) = 0x10000000 ||| BitVec.ofNat 32 v := by
  simp [encode, packFields, setWidth_ofNat_of_lt (k := 8) (by decide) hv]

/-- The word of a command with an offset, below the opcode's bits. -/
theorem packFields_offset_ofNat (op : BitVec 4) {v : Nat} (hv : v < 4096) :
    packFields op (BitVec.ofNat 12 v) 0 0 = (op.setWidth 32 <<< 28) ||| (BitVec.ofNat 32 v <<< 16) := by
  simp [packFields, setWidth_ofNat_of_lt (k := 12) (by decide) hv]

/-- A line whose one operand has to be below a bound assembles to its command's word, or is refused. -/
theorem assemble_of_expand_below {n bound v : Nat} {l : Line} {i : Instr} {w : Word}
    (hl : expand n l = (below bound v).map (fun _ => [i])) (hw : v < bound → encode i = w) :
    assemble n [l] = if v < bound then some [w] else none := by
  rw [assemble_singleton, hl]
  by_cases hv : v < bound
  · simp [below, hv, hw hv]
  · simp [below, hv]

theorem map_below (bound v : Nat) {α : Type} (f : Nat → α) :
    (below bound v).map f = (below bound v).map (fun _ => f v) := by
  unfold below
  split <;> rfl

theorem expand_append (n v : Nat) :
    expand n (.append v) = (below 256 v).map (fun _ => [.append (BitVec.ofNat 8 v)]) := by
  rw [expand, appendCmd, Option.map_map, map_below]
  rfl

end Assembler

/-- Settles O11: each of the three lines has one operand, below 256 or below N. -/
theorem assemblerRefusesOutOfRangeOperands : Obligations.AssemblerRefusesOutOfRangeOperands := by
  unfold Obligations.AssemblerRefusesOutOfRangeOperands
  intro n v hn
  refine ⟨?append, ?peek, ?decode⟩
  case append =>
    simp only [← Nat.lt_succ_iff]
    exact Assembler.assemble_of_expand_below (Assembler.expand_append n v) Assembler.encode_append_ofNat
  case peek =>
    exact Assembler.assemble_of_expand_below (Assembler.map_below n v _)
      fun hv => Assembler.packFields_offset_ofNat 2 (hv.trans_le hn)
  case decode =>
    exact Assembler.assemble_of_expand_below (Assembler.map_below n v _)
      fun hv => Assembler.packFields_offset_ofNat 4 (hv.trans_le hn)

/-! ### The causes 3 and 4 in `exec` (R51) -/

/-- Settles O14: of the commands that AUTO allows, NOP and PEEK are the only ones. -/
theorem autoModeForbidsAllButNopAndPeek : Obligations.AutoModeForbidsAllButNopAndPeek := by
  unfold Obligations.AutoModeForbidsAllButNopAndPeek
  intro s i hmode hoff hnop hpeek
  have hforbidden : ¬ i.allowedIn s.cfg.mode = true := by
    rw [hmode]
    cases i with
    | nop => exact absurd rfl hnop
    | peek o => exact absurd rfl (hpeek o)
    | append | find | decode | frame | cycle => simp [Instr.allowedIn]
  exact exec_illegal (illegalIn_of_not_allowedIn hoff hforbidden)

/-- Settles O15: the check of cause 3 comes before that of cause 4, so the mode does not matter. -/
theorem offsetBeyondTheRingIsCause3 : Obligations.OffsetBeyondTheRingIsCause3 := by
  unfold Obligations.OffsetBeyondTheRingIsCause3
  intro s o ho
  have hpeek : ¬ (Instr.peek o).offsetInRange s.cfg.n = true := by simpa [Instr.offsetInRange] using ho
  have hdecode : ¬ (Instr.decode o).offsetInRange s.cfg.n = true := by simpa [Instr.offsetInRange] using ho
  exact ⟨exec_illegal (illegalIn_of_not_offsetInRange hpeek), exec_illegal (illegalIn_of_not_offsetInRange hdecode)⟩

end Sys2Proof.Machine
end

section
/-! PROOFS. The invariant (`State.Inv`): each operation keeps it, and so every step does. -/

namespace Sys2Proof.Machine

/-! ### A cycle in two parts -/

namespace State

variable {s : State}

/-- The state after the read of the Source and the append of its batch, still between two operations: step 1 of a cycle
(43_framing_fsm.md R79) without its phase. -/
def afterIngest (s : State) : State := s.afterRead.appendBytes s.batch

theorem ingest_eq_afterIngest (s : State) : s.ingest = s.afterIngest.setPhase .scan := ingest_eq s

@[simp] theorem frameOnce_setPhase (s : State) (p : Phase) : (s.setPhase p).frameOnce = s.frameOnce := rfl

/-- CYCLE is the append of one batch, then what FRAME does (43_framing_fsm.md R79). -/
theorem cycleOnce_eq_frameOnce (s : State) : s.cycleOnce = s.afterIngest.frameOnce := by
  rw [cycleOnce, ingest_eq_afterIngest, frameOnce_setPhase]

@[simp] theorem afterIngest_cfg (s : State) : s.afterIngest.cfg = s.cfg := by simp [afterIngest]
@[simp] theorem afterIngest_phase (s : State) : s.afterIngest.phase = s.phase := by simp [afterIngest]
@[simp] theorem afterIngest_pub (s : State) : s.afterIngest.pub = s.pub := by simp [afterIngest]

/-! ### The cadence timer -/

/-- A timer that runs has not reached the period, and in CMD none runs. -/
def TimerInv (m : Mode) (t : CadenceTimer) : Prop :=
  (∀ k, t = .running k → k < Config.cadenceTicks) ∧ (m = .cmd → t = .expired)

theorem timerInv_expired (m : Mode) : TimerInv m .expired := ⟨nofun, fun _ => rfl⟩

theorem timerInv_atTicks (k : Nat) : TimerInv .auto (CadenceTimer.atTicks k) := by
  refine ⟨fun j hj => ?_, nofun⟩
  unfold CadenceTimer.atTicks at hj
  split at hj
  · cases hj
  · cases hj
    omega

theorem timerInv_advance (t : CadenceTimer) (k : Nat) : TimerInv .auto (t.advance k) := by
  cases t with
  | expired => exact timerInv_expired .auto
  | running j => exact timerInv_atTicks (j + k)

/-! ### Updates of a field -/

/-- The invariant does not look at the ports, nor at the model's own fields. -/
theorem Inv.of_ports (hs : s.Inv) (strap : Mode) (host : List HostEvent) (pins : List PinEvent)
    (source : List SourceAnswer) (pub : List Record) (draws : Nat) :
    Inv { s with strap := strap, host := host, pins := pins, source := source, pub := pub, draws := draws } :=
  { hs with }

theorem Inv.setTimer (hs : s.Inv) {t : CadenceTimer} (ht : TimerInv s.cfg.mode t) : (s.setTimer t).Inv :=
  { hs with timer_lt := ht.1, timer_cmd := ht.2 }

theorem Inv.setRdata (hs : s.Inv) (b : Byte) : (s.setRdata b).Inv := { hs with }

theorem Inv.setRecord (hs : s.Inv) (r : Record) : (s.setRecord r).Inv := { hs with }

theorem Inv.n_pos (hs : s.Inv) : 0 < s.cfg.n := Nat.zero_lt_of_lt hs.cfg_wf.1

theorem Inv.setPos (hs : s.Inv) (p : Nat) : (s.setPos p).Inv :=
  { hs with pos_lt := (setPos_toNat hs.cfg_wf p).trans_lt (Nat.mod_lt _ hs.n_pos) }

theorem Inv.setScan (hs : s.Inv) {r : Option Nat} (hr : ∀ o, r = some o → o < s.cfg.n) : (s.setScan r).Inv := by
  cases r with
  | none => exact { hs with foff_lt := hs.n_pos, foff_none := fun _ => rfl }
  | some o =>
    have hfoff : (BitVec.ofNat 12 o).toNat = o := toNat_ofNat12 (hr o rfl) hs.cfg_wf.2
    exact { hs with foff_lt := hfoff.trans_lt (hr o rfl), foff_none := nofun }

/-- Each of the four causes has a code from 1 to 4 (60_exceptions.md R96). -/
theorem code_ne_zero_and_le (c : IllegalCause) : c.code ≠ 0 ∧ c.code.toNat ≤ 4 := by
  cases c <;> decide

theorem Inv.raiseIllegal (hs : s.Inv) (c : IllegalCause) : (s.raiseIllegal c).Inv := by
  obtain ⟨hne, hle⟩ := code_ne_zero_and_le c
  have hillc : (s.raiseIllegal c).illc ≠ 0 ∧ (s.raiseIllegal c).illc.toNat ≤ 4 := by
    rw [raiseIllegal_illc]
    split
    · rename_i hill
      exact ⟨fun h0 => by simp [hs.illc_none.mpr h0] at hill, hs.illc_le⟩
    · exact ⟨hne, hle⟩
  exact { hs with illc_none := iff_of_false nofun hillc.1, illc_le := hillc.2 }

/-! ### Operations -/

theorem Inv.appendBytes (hs : s.Inv) (bs : List Byte) : (s.appendBytes bs).Inv := by
  have hpos := (appendBytes_pos hs.cfg_wf hs.pos_lt bs).trans_lt (Nat.mod_lt _ hs.n_pos)
  have hlt := appendBytes_mem_lt hs.cfg_wf hs.mem_lt bs
  rw [appendBytes_eq]
  exact { hs with mem_wf := appendBytes_mem_wf hs.mem_wf bs, mem_lt := hlt, pos_lt := hpos }

theorem Inv.findStart_lt (hs : s.Inv) {p o : Nat} (h : s.findStart p = some o) : o < s.cfg.n :=
  State.findStart_lt hs.n_pos h

theorem Inv.setPhase_idle (hs : s.Inv) : (s.setPhase .idle).Inv := { hs with phase_idle := rfl }

theorem Inv.scanReport (hs : s.Inv) : s.scanReport.Inv := by
  rw [scanReport_eq]
  exact (hs.setScan fun _ => hs.findStart_lt).setPhase_idle

theorem Inv.frameOnce (hs : s.Inv) : s.frameOnce.Inv := by
  cases h : s.findStart s.pos.toNat with
  | none =>
    rw [frameOnce_none h]
    exact (hs.setScan (r := none) nofun).setPhase_idle
  | some fs =>
    have hscan := hs.setScan (r := some fs) fun o ho => hs.findStart_lt (h.trans ho)
    rw [frameOnce_some h]
    exact (((hscan.setRecord (s.decodeFrame fs)).setPos (fs + Config.frameLen)).setPhase_idle).of_ports s.strap s.host
      s.pins s.source (s.pub ++ [s.decodeFrame fs]) s.draws

theorem Inv.afterIngest (hs : s.Inv) : s.afterIngest.Inv := by
  have hread : s.afterRead.Inv := by
    rw [afterRead_eq]
    exact hs.of_ports s.strap s.host s.pins _ s.pub _
  exact hread.appendBytes s.batch

theorem Inv.cycleOnce (hs : s.Inv) : s.cycleOnce.Inv := by
  rw [cycleOnce_eq_frameOnce]
  exact hs.afterIngest.frameOnce

theorem Inv.resetState (hs : s.Inv) : s.resetState.Inv where
  cfg_wf := hs.cfg_wf
  mem_wf := Memory.resetRing_wf s.cfg s.draws
  mem_lt := Memory.resetRing_lt s.cfg s.draws
  pos_lt := hs.n_pos
  foff_lt := hs.n_pos
  foff_none := fun _ => rfl
  illc_none := iff_of_true rfl rfl
  illc_le := Nat.zero_le 4
  phase_idle := rfl
  timer_lt := nofun
  timer_cmd := fun _ => rfl

/-! ### The passing of time -/

theorem Inv.elapse (hs : s.Inv) (k : Nat) : (s.elapse k).Inv := by
  cases hm : s.cfg.mode with
  | cmd => rwa [elapse_cmd hm]
  | auto =>
    simp only [State.elapse, hm]
    exact hs.setTimer (hm ▸ timerInv_advance s.timer k)

theorem Inv.idleOut (hs : s.Inv) : s.idleOut.Inv := by
  cases hm : s.cfg.mode with
  | cmd => rwa [idleOut_cmd hm]
  | auto =>
    simp only [State.idleOut, hm]
    exact hs.setTimer (timerInv_expired s.cfg.mode)

theorem Inv.passLatency (hs : s.Inv) : s.passLatency.Inv := by
  cases hm : s.cfg.mode with
  | cmd => rwa [passLatency_cmd hm]
  | auto =>
    rw [passLatency_auto hm]
    exact (hs.setTimer (hm ▸ timerInv_advance s.timer (Config.latency s.draws))).of_ports s.strap s.host s.pins s.source
      s.pub (s.draws + 1)

theorem Inv.autoCycle (hs : s.Inv) (hm : s.cfg.mode = .auto) : s.autoCycle.Inv := by
  have hm' : s.cycleOnce.cfg.mode = .auto := by rwa [cycleOnce_cfg]
  rw [autoCycle_eq]
  exact (hs.cycleOnce.setTimer (hm' ▸ timerInv_atTicks (Config.latency s.cycleOnce.draws))).of_ports s.cycleOnce.strap
    s.cycleOnce.host s.cycleOnce.pins s.cycleOnce.source s.cycleOnce.pub (s.cycleOnce.draws + 1)

theorem mode_auto_of_cycleDue (h : s.cycleDue = true) : s.cfg.mode = .auto := by
  cases hm : s.cfg.mode with
  | auto => rfl
  | cmd => simp [cycleDue_cmd hm] at h

end State

/-- Every command keeps the invariant. -/
theorem State.Inv.effect {s : State} (hs : s.Inv) (i : Instr) : (effect i s).Inv := by
  cases i with
  | nop => exact hs
  | append b => exact hs.appendBytes [b]
  | peek o => exact hs.setRdata _
  | find => exact hs.scanReport
  | decode o => exact hs.setRecord _
  | frame => exact hs.frameOnce
  | cycle => exact hs.cycleOnce

/-! ### The obligations -/

/-- Settles O58: the fields of `State.reset`, each by evaluation. -/
theorem resetSatisfiesTheInvariant : Obligations.ResetSatisfiesTheInvariant := by
  unfold Obligations.ResetSatisfiesTheInvariant
  exact {
    cfg_wf := by decide
    mem_wf := Memory.wf_nil
    mem_lt := nofun
    pos_lt := by decide
    foff_lt := by decide
    foff_none := fun _ => rfl
    illc_none := iff_of_true rfl rfl
    illc_le := by decide
    phase_idle := rfl
    timer_lt := nofun
    timer_cmd := fun _ => rfl }

/-- Settles O59: what a step did by `step_cases`, and each of these keeps the invariant. -/
theorem everyStepKeepsTheInvariant : Obligations.EveryStepKeepsTheInvariant := by
  unfold Obligations.EveryStepKeepsTheInvariant
  intro s t hs h
  have hports (strap : Mode) (host : List HostEvent) (pins : List PinEvent) :=
    hs.of_ports strap host pins s.source s.pub s.draws
  have hpast : s.pastPins.Inv := hports s.strap s.host s.pins.tail
  have htaken (rest : List HostEvent) : (s.pastPins.setHost rest).Inv := hports s.strap rest s.pins.tail
  cases step_cases h with
  | reset rest hh ht => exact ht ▸ (hports s.strap s.host rest).resetState
  | strap m rest hh ht => exact ht ▸ hports m s.host rest
  | auto hq hp hd ht => exact ht ▸ hpast.autoCycle (State.mode_auto_of_cycleDue hd)
  | illegal w rest c hq hp hd hh hw ht => exact ht ▸ ((htaken rest).raiseIllegal c).passLatency
  | command w rest i hq hp hd hh hw ht => exact ht ▸ ((htaken rest).effect i).passLatency
  | idle k rest hq hp hd hh ht => exact ht ▸ (htaken rest).elapse k
  | quiet hq hp hd hh ht => exact ht ▸ hpast.idleOut

end Sys2Proof.Machine
end

section
/-! PROOFS. Who writes what: the ring (10_state.md R16), the cursor (R18), `found` and `foff` (R20), the record
(section 3) and the published sequence (43_framing_fsm.md R82). -/

namespace Sys2Proof.Machine

/-! ### What a scan writes -/

namespace State

variable {s : State} {fs : Nat}

theorem frameOnce_record_of_match (h : s.findStart s.pos.toNat = some fs) : s.frameOnce.record = s.decodeFrame fs := by
  rw [frameOnce_some h]

theorem frameOnce_record_of_none (h : s.findStart s.pos.toNat = none) : s.frameOnce.record = s.record := by
  rw [frameOnce_none h]

theorem frameOnce_pos_of_none (h : s.findStart s.pos.toNat = none) : s.frameOnce.pos = s.pos := by
  rw [frameOnce_none h]

/-- `found` and `foff` report what a scan answered (10_state.md R20). -/
def ReportsScan (t : State) (r : Option Nat) : Prop :=
  (∀ o, r = some o → t.found = true ∧ t.foff.toNat = o) ∧ (r = none → t.found = false ∧ t.foff = 0)

theorem setScan_reports {n : Nat} (hn : n ≤ 4096) {r : Option Nat} (hr : ∀ o, r = some o → o < n) (u : State) :
    (u.setScan r).ReportsScan r := by
  refine ⟨?found, ?none⟩
  case found =>
    rintro o rfl
    exact ⟨rfl, toNat_ofNat12 (hr o rfl) hn⟩
  case none =>
    rintro rfl
    exact ⟨rfl, rfl⟩

theorem scanReport_reports (hs : s.Inv) : s.scanReport.ReportsScan (s.findStart s.pos.toNat) := by
  rw [scanReport_eq]
  exact setScan_reports hs.cfg_wf.2 (fun _ => hs.findStart_lt) s

theorem frameOnce_reports (hs : s.Inv) : s.frameOnce.ReportsScan (s.findStart s.pos.toNat) := by
  cases h : s.findStart s.pos.toNat with
  | none =>
    rw [frameOnce_none h]
    exact setScan_reports hs.cfg_wf.2 (r := none) nofun s
  | some fs =>
    rw [frameOnce_some h]
    exact setScan_reports hs.cfg_wf.2 (r := some fs) (fun o ho => hs.findStart_lt (h.trans ho)) s

/-- The scan of a cycle is that of FRAME after the append. -/
theorem findStart_ingest (s : State) :
    s.ingest.findStart s.ingest.pos.toNat = s.afterIngest.findStart s.afterIngest.pos.toNat := by
  rw [ingest_eq_afterIngest]
  exact findStart_eq_of rfl rfl _

theorem cycleOnce_reports (hs : s.Inv) : s.cycleOnce.ReportsScan (s.ingest.findStart s.ingest.pos.toNat) := by
  rw [cycleOnce_eq_frameOnce, findStart_ingest]
  exact frameOnce_reports hs.afterIngest

/-! ### Publishing -/

/-- From `s` to `t` nothing is published, or the record register's new value once (43_framing_fsm.md R82). -/
def PublishesAtMostOnce (s t : State) : Prop := t.pub = s.pub ∨ ∃ r, t.pub = s.pub ++ [r] ∧ t.record = r

/-- A scan publishes exactly where it finds. -/
def PublishesIffFound (s t : State) : Prop :=
  (t.found = true ↔ t.pub = s.pub ++ [t.record]) ∧ (t.found = false ↔ t.pub = s.pub)

theorem frameOnce_publishesIffFound (s : State) : PublishesIffFound s s.frameOnce := by
  cases h : s.findStart s.pos.toNat with
  | none => simp [PublishesIffFound, frameOnce_none h]
  | some fs => simp [PublishesIffFound, frameOnce_some h]

theorem cycleOnce_publishesIffFound (s : State) : PublishesIffFound s s.cycleOnce := by
  have h := frameOnce_publishesIffFound s.afterIngest
  rwa [← cycleOnce_eq_frameOnce, PublishesIffFound, afterIngest_pub] at h

theorem PublishesIffFound.atMostOnce {t : State} (h : PublishesIffFound s t) : PublishesAtMostOnce s t := by
  obtain ⟨hfound, hnone⟩ := h
  cases hf : t.found with
  | false => exact .inl (hnone.mp hf)
  | true => exact .inr ⟨t.record, hfound.mp hf, rfl⟩

end State

/-! ### What a command leaves -/

theorem effect_mem_of_ne {i : Instr} (happend : ∀ b, i ≠ .append b) (hcycle : i ≠ .cycle) (s : State) :
    (effect i s).mem = s.mem := by
  cases i with
  | append b => exact absurd rfl (happend b)
  | cycle => exact absurd rfl hcycle
  | find => simp [effect, State.scanReport_eq]
  | nop | peek | decode | frame => simp [effect]

theorem effect_pos_of_ne {i : Instr} (happend : ∀ b, i ≠ .append b) (hframe : i ≠ .frame) (hcycle : i ≠ .cycle)
    (s : State) : (effect i s).pos = s.pos := by
  cases i with
  | append b => exact absurd rfl (happend b)
  | frame => exact absurd rfl hframe
  | cycle => exact absurd rfl hcycle
  | find => simp [effect, State.scanReport_eq]
  | nop | peek | decode => simp [effect]

/-- The two registers that report a scan (10_state.md R20). -/
def State.scanRegs (s : State) : Bool × Offset := (s.found, s.foff)

theorem State.scanRegs_eq_iff {s t : State} : t.scanRegs = s.scanRegs ↔ t.found = s.found ∧ t.foff = s.foff :=
  Prod.mk_inj

theorem effect_scanRegs_of_ne {i : Instr} (hfind : i ≠ .find) (hframe : i ≠ .frame) (hcycle : i ≠ .cycle) (s : State) :
    (effect i s).scanRegs = s.scanRegs := by
  cases i with
  | find => exact absurd rfl hfind
  | frame => exact absurd rfl hframe
  | cycle => exact absurd rfl hcycle
  | nop | append | peek | decode => rfl

theorem effect_record_of_ne {i : Instr} (hdecode : ∀ o, i ≠ .decode o) (hframe : i ≠ .frame) (hcycle : i ≠ .cycle)
    (s : State) : (effect i s).record = s.record := by
  cases i with
  | decode o => exact absurd rfl (hdecode o)
  | frame => exact absurd rfl hframe
  | cycle => exact absurd rfl hcycle
  | find => simp [effect, State.scanReport_eq]
  | append b => exact State.appendBytes_record [b]
  | nop | peek => rfl

theorem effect_pub_of_ne {i : Instr} (hframe : i ≠ .frame) (hcycle : i ≠ .cycle) (s : State) :
    (effect i s).pub = s.pub := by
  cases i with
  | frame => exact absurd rfl hframe
  | cycle => exact absurd rfl hcycle
  | find => simp [effect, State.scanReport_eq]
  | append b => exact State.appendBytes_pub [b]
  | nop | peek | decode => rfl

theorem effect_publishesAtMostOnce (i : Instr) (s : State) : s.PublishesAtMostOnce (effect i s) := by
  cases i with
  | frame => exact s.frameOnce_publishesIffFound.atMostOnce
  | cycle => exact s.cycleOnce_publishesIffFound.atMostOnce
  | nop | append | peek | find | decode => exact .inl (effect_pub_of_ne (by simp) (by simp) s)

/-! ### Who can write a register that the illegal-command exception leaves -/

section Register

variable {α : Type} {f : State → α} {s t : State} (hill : ∀ (u : State) (c : IllegalCause), f (u.raiseIllegal c) = f u)

include hill

/-- A command that leaves such a register where it is legal leaves it. -/
theorem exec_keeps_register {i : Instr} (h : exec i s = .next t) (hcommand : f (effect i s) = f s) : f t = f s := by
  obtain ⟨-, rfl⟩ | ⟨c, -, rfl⟩ := exec_cases h
  · exact hcommand
  · exact hill s c

/-- So does a step that is no reset and no autonomous cycle, where the command that stands first leaves it. -/
theorem step_keeps_register (hf : IgnoresPortsAndTime f) (h : step s = .next t)
    (hreset : ∀ rest, s.pins ≠ .reset :: rest) (hauto : ¬ s.startsCycle)
    (hcommand : ∀ i, s.offers i → ∀ u, f (effect i u) = f u) : f t = f s :=
  step_keeps hf h hreset (fun hstart => absurd hstart hauto) (fun c u hu => (hill u c).trans hu)
    fun i hi u hu => (hcommand i hi u).trans hu

end Register

/-- A command offered is none of those that are not offered. -/
theorem ne_of_offers {s : State} {i j : Instr} (hi : s.offers i) (hj : ¬ s.offers j) : i ≠ j :=
  fun h => hj (h ▸ hi)

/-! ### Steps that publish -/

/-- Neither the ports nor the passing of time look at what is published or at the record. -/
theorem publishesAtMostOnce_of_ports {s u v : State} (hp : v.pub = u.pub) (hr : v.record = u.record)
    (h : s.PublishesAtMostOnce u) : s.PublishesAtMostOnce v := by
  unfold State.PublishesAtMostOnce
  rwa [hp, hr]

theorem pub_ignoresPortsAndTime : IgnoresPortsAndTime State.pub := fun _ _ _ _ _ _ => rfl

theorem record_ignoresPortsAndTime : IgnoresPortsAndTime State.record := fun _ _ _ _ _ _ => rfl

theorem step_publishesAtMostOnce {s t : State} (h : step s = .next t) : s.PublishesAtMostOnce t := by
  have hkept {t' : State} (ht : t = t') (hpub : t'.pub = s.pub) : s.PublishesAtMostOnce t := .inl (ht ▸ hpub)
  cases step_cases h with
  | reset rest hh ht => exact hkept ht rfl
  | strap m rest hh ht => exact hkept ht rfl
  | auto hq hp hd ht =>
    have hcycle : s.PublishesAtMostOnce s.pastPins.cycleOnce := s.pastPins.cycleOnce_publishesIffFound.atMostOnce
    rw [ht, State.autoCycle_eq]
    exact publishesAtMostOnce_of_ports (u := s.pastPins.cycleOnce) rfl rfl hcycle
  | illegal w rest c hq hp hd hh hw ht => exact hkept ht (pub_ignoresPortsAndTime.passLatency _)
  | command w rest i hq hp hd hh hw ht =>
    obtain rfl := ht
    exact publishesAtMostOnce_of_ports (pub_ignoresPortsAndTime.passLatency _)
      (record_ignoresPortsAndTime.passLatency _) (effect_publishesAtMostOnce i (s.pastPins.setHost rest))
  | idle k rest hq hp hd hh ht => exact hkept ht (by rw [State.elapse_eq]; rfl)
  | quiet hq hp hd hh ht => exact hkept ht (by rw [State.idleOut_eq]; rfl)

/-! ### The obligations -/

theorem exec_find_cmd {s : State} (h : s.cfg.mode = .cmd) : exec .find s = .next s.scanReport :=
  exec_legal (h ▸ illegalIn_cmd rfl)

/-- Settles O47: a scan publishes where it finds, a legal command or a cycle publishes by its scan alone. -/
theorem publishedOncePerMatchAndNeverElse : Obligations.PublishedOncePerMatchAndNeverElse := by
  unfold Obligations.PublishedOncePerMatchAndNeverElse
  refine ⟨fun s t => step_publishesAtMostOnce, ?others, ?frame, ?cycle⟩
  case others =>
    intro i s t h hframe hcycle
    exact exec_keeps_register State.raiseIllegal_pub h (effect_pub_of_ne hframe hcycle s)
  case frame =>
    intro s t hmode h
    rw [exec_frame_cmd hmode] at h
    cases h
    exact s.frameOnce_publishesIffFound
  case cycle =>
    intro s t hmode h
    rw [exec_cycle_cmd hmode] at h
    cases h
    exact s.cycleOnce_publishesIffFound

/-- Settles O52: of the commands only APPEND and CYCLE change the ring, and the scan leaves it. -/
theorem onlyAppendsWriteTheRing : Obligations.OnlyAppendsWriteTheRing := by
  unfold Obligations.OnlyAppendsWriteTheRing
  refine ⟨?exec, ?step, State.frameOnce_mem, fun s b => rfl⟩
  case exec =>
    intro i s t h happend hcycle
    exact exec_keeps_register State.raiseIllegal_mem h (effect_mem_of_ne happend hcycle s)
  case step =>
    intro s t h hreset hauto happend hcycle
    exact step_keeps_register State.raiseIllegal_mem (fun _ _ _ _ _ _ => rfl) h hreset hauto fun i hi =>
      effect_mem_of_ne (fun b => ne_of_offers hi (happend b)) (ne_of_offers hi hcycle)

/-- Settles O53: the cursor of one append and of a match, and the frame of every other command and step. -/
theorem onlyAppendsAndMatchesMoveTheCursor : Obligations.OnlyAppendsAndMatchesMoveTheCursor := by
  unfold Obligations.OnlyAppendsAndMatchesMoveTheCursor
  refine ⟨fun s hs b => State.appendByte_pos_toNat hs.cfg_wf b, fun s hs fs => State.frameOnce_pos_toNat hs.cfg_wf,
    fun s => State.frameOnce_pos_of_none, ?exec, ?step⟩
  case exec =>
    intro i s t h happend hframe hcycle
    exact exec_keeps_register State.raiseIllegal_pos h (effect_pos_of_ne happend hframe hcycle s)
  case step =>
    intro s t h hreset hauto happend hframe hcycle
    exact step_keeps_register State.raiseIllegal_pos (fun _ _ _ _ _ _ => rfl) h hreset hauto fun i hi =>
      effect_pos_of_ne (fun b => ne_of_offers hi (happend b)) (ne_of_offers hi hframe) (ne_of_offers hi hcycle)

theorem raiseIllegal_scanRegs (s : State) (c : IllegalCause) : (s.raiseIllegal c).scanRegs = s.scanRegs := rfl

/-- Settles O54: the three commands report their scan, and every other command and step leaves both registers. -/
theorem onlyScansWriteFoundAndFoff : Obligations.OnlyScansWriteFoundAndFoff := by
  unfold Obligations.OnlyScansWriteFoundAndFoff
  refine ⟨?findFrame, ?cycle, ?exec, ?step, rfl, rfl⟩
  case findFrame =>
    rintro s t i hs hmode (rfl | rfl) h
    · rw [exec_find_cmd hmode] at h
      cases h
      exact State.scanReport_reports hs
    · rw [exec_frame_cmd hmode] at h
      cases h
      exact State.frameOnce_reports hs
  case cycle =>
    intro s t hs hmode h
    rw [exec_cycle_cmd hmode] at h
    cases h
    exact State.cycleOnce_reports hs
  case exec =>
    intro i s t h hfind hframe hcycle
    exact State.scanRegs_eq_iff.mp
      (exec_keeps_register raiseIllegal_scanRegs h (effect_scanRegs_of_ne hfind hframe hcycle s))
  case step =>
    intro s t h hreset hauto hfind hframe hcycle
    exact State.scanRegs_eq_iff.mp
      (step_keeps_register raiseIllegal_scanRegs (fun _ _ _ _ _ _ => rfl) h hreset hauto fun i hi =>
        effect_scanRegs_of_ne (ne_of_offers hi hfind) (ne_of_offers hi hframe) (ne_of_offers hi hcycle))

/-- Settles O56: the frame of every other command and step, and the record of a scan by its answer. -/
theorem onlyDecodesWriteTheRecord : Obligations.OnlyDecodesWriteTheRecord := by
  unfold Obligations.OnlyDecodesWriteTheRecord
  refine ⟨?exec, ?step, fun s fs => State.frameOnce_record_of_match, fun s => State.frameOnce_record_of_none⟩
  case exec =>
    intro i s t h hdecode hframe hcycle
    exact exec_keeps_register State.raiseIllegal_record h (effect_record_of_ne hdecode hframe hcycle s)
  case step =>
    intro s t h hreset hauto hdecode hframe hcycle
    exact step_keeps_register State.raiseIllegal_record record_ignoresPortsAndTime h hreset hauto fun i hi =>
      effect_record_of_ne (fun o => ne_of_offers hi (hdecode o)) (ne_of_offers hi hframe) (ne_of_offers hi hcycle)

end Sys2Proof.Machine
end

section
/-! PROOFS. The step between two operations: reset, the priority of what stands at the ports (60_exceptions.md R97,
R100), waits (R107), the cadence of AUTO (43_framing_fsm.md R86 to R88), and the status outputs (30_encoding.md R46). -/

namespace Sys2Proof.Machine

/-! ### What an operation leaves at the ports -/

namespace State

variable {s : State}

@[simp] theorem afterIngest_host (s : State) : s.afterIngest.host = s.host := by simp [afterIngest]
@[simp] theorem afterIngest_pins (s : State) : s.afterIngest.pins = s.pins := by simp [afterIngest]
@[simp] theorem cycleOnce_host (s : State) : s.cycleOnce.host = s.host := by simp [cycleOnce_eq_frameOnce]
@[simp] theorem cycleOnce_pins (s : State) : s.cycleOnce.pins = s.pins := by simp [cycleOnce_eq_frameOnce]
@[simp] theorem cycleOnce_phase (s : State) : s.cycleOnce.phase = .idle := by simp [cycleOnce_eq_frameOnce]

@[simp] theorem autoCycle_host (s : State) : s.autoCycle.host = s.host := by simp [autoCycle_eq]
@[simp] theorem autoCycle_pins (s : State) : s.autoCycle.pins = s.pins := by simp [autoCycle_eq]
@[simp] theorem autoCycle_phase (s : State) : s.autoCycle.phase = .idle := by simp [autoCycle_eq]

@[simp] theorem passLatency_host (s : State) : s.passLatency.host = s.host := by rw [passLatency_eq]
@[simp] theorem passLatency_pins (s : State) : s.passLatency.pins = s.pins := by rw [passLatency_eq]
@[simp] theorem passLatency_phase (s : State) : s.passLatency.phase = s.phase := by rw [passLatency_eq]
@[simp] theorem passLatency_cfg (s : State) : s.passLatency.cfg = s.cfg := by rw [passLatency_eq]
@[simp] theorem elapse_host (s : State) (k : Nat) : (s.elapse k).host = s.host := by rw [elapse_eq]
@[simp] theorem elapse_pins (s : State) (k : Nat) : (s.elapse k).pins = s.pins := by rw [elapse_eq]
@[simp] theorem elapse_phase (s : State) (k : Nat) : (s.elapse k).phase = s.phase := by rw [elapse_eq]
@[simp] theorem idleOut_host (s : State) : s.idleOut.host = s.host := by rw [idleOut_eq]
@[simp] theorem idleOut_pins (s : State) : s.idleOut.pins = s.pins := by rw [idleOut_eq]
@[simp] theorem idleOut_phase (s : State) : s.idleOut.phase = s.phase := by rw [idleOut_eq]

/-- In AUTO a cycle is due exactly when the timer has expired (43_framing_fsm.md R86, R87). -/
theorem cycleDue_auto (hm : s.cfg.mode = .auto) : s.cycleDue = true ↔ s.timer = .expired := by
  simp [cycleDue, hm]

/-- Where no cycle is due in AUTO, the timer has not expired. -/
theorem timer_ne_expired (hm : s.cfg.mode = .auto) (hd : s.cycleDue = false) : s.timer ≠ .expired :=
  fun h => by simp [(cycleDue_auto hm).mpr h] at hd

theorem cycleDue_of_running (h : s.timer ≠ .expired) : s.cycleDue = false := by
  simp [cycleDue, h]

end State

@[simp] theorem effect_host (i : Instr) (s : State) : (effect i s).host = s.host := by
  cases i with
  | append b => exact State.appendBytes_host [b]
  | nop | peek | find | decode | frame | cycle => simp [effect, State.scanReport_eq]

@[simp] theorem effect_pins (i : Instr) (s : State) : (effect i s).pins = s.pins := by
  cases i with
  | append b => exact State.appendBytes_pins [b]
  | nop | peek | find | decode | frame | cycle => simp [effect, State.scanReport_eq]

/-- Every command ends in phase IDLE (43_framing_fsm.md R89). -/
theorem effect_phase {s : State} (hp : s.phase = .idle) (i : Instr) : (effect i s).phase = .idle := by
  cases i with
  | append b => exact (State.appendBytes_phase [b]).trans hp
  | nop | peek | find | decode | frame | cycle => simp [effect, State.scanReport_eq, hp]

/-! ### A word taken from the port -/

/-- The state after the port accepts a word: the command's effect, or the exception (30_encoding.md R51). -/
def accepted (w : Word) (s : State) : State :=
  match decodeCmd s.cfg.n s.cfg.mode w with
  | .error c => s.raiseIllegal c
  | .ok i => effect i s

theorem acceptCommand_eq (w : Word) (s : State) : acceptCommand w s = .next (accepted w s) := by
  unfold accepted
  cases h : decodeCmd s.cfg.n s.cfg.mode w with
  | error c => exact acceptCommand_error h
  | ok i => exact acceptCommand_ok h

@[simp] theorem accepted_host (w : Word) (s : State) : (accepted w s).host = s.host := by
  unfold accepted
  split <;> simp

theorem step_accepts {s : State} {w : Word} {rest : List HostEvent} (hq : s.pinsQuiet = true) (hp : s.phase = .idle)
    (hd : s.cycleDue = false) (hh : s.host = .command w :: rest) :
    step s = .next (accepted w (s.pastPins.setHost rest)).passLatency := by
  have hd' : s.pastPins.cycleDue = false := hd
  rw [step_quiet hq]
  simp [operate, hh, unlessBusy, hp, hd', acceptCommand_eq, withLatency]

theorem step_cycle {s : State} (hs : s.startsCycle) : step s = .next s.pastPins.autoCycle := by
  obtain ⟨hp, hd, hq⟩ := hs
  rw [step_quiet hq]
  exact operate_cycle hp hd

/-! ### Every step between two operations -/

/-- Between two operations every step answers a next state (60_exceptions.md R94). -/
theorem exists_step {s : State} (hp : s.phase = .idle) : ∃ t, step s = .next t := by
  by_cases hq : s.pinsQuiet = true
  · rw [step_quiet hq]
    cases hd : s.cycleDue with
    | true => exact ⟨_, operate_cycle (s := s.pastPins) hp hd⟩
    | false =>
      cases hh : s.host with
      | nil => exact ⟨_, operate_quiet (s := s.pastPins) hp hd hh⟩
      | cons e rest =>
        cases e with
        | command w => exact ⟨_, step_quiet hq ▸ step_accepts hq hp hd hh⟩
        | idle k => exact ⟨_, operate_idle (s := s.pastPins) hp hd hh⟩
  · unfold State.pinsQuiet at hq
    split at hq
    · exact ⟨_, step_reset ‹_›⟩
    · exact ⟨_, step_strap ‹_›⟩
    · exact absurd rfl hq
    · exact absurd rfl hq

/-- Each step uses up the first event at the pins. -/
theorem step_pins {s t : State} (h : step s = .next t) : t.pins = s.pins.tail := by
  cases step_cases h with
  | reset _ hh ht | strap _ _ hh ht => simp [ht, hh]
  | auto _ _ _ ht | illegal _ _ _ _ _ _ _ _ ht | command _ _ _ _ _ _ _ _ ht | idle _ _ _ _ _ _ ht | quiet _ _ _ _ ht =>
    simp [ht]

/-- No step leaves phase IDLE. -/
theorem step_phase {s t : State} (h : step s = .next t) (hidle : s.phase = .idle) : t.phase = .idle := by
  cases step_cases h with
  | command w rest i hq hp hd hh hw ht =>
    rw [ht, State.passLatency_phase]
    exact effect_phase (s := s.pastPins.setHost rest) hidle i
  | reset _ _ ht | strap _ _ _ ht | auto _ _ _ ht | illegal _ _ _ _ _ _ _ _ ht | idle _ _ _ _ _ _ ht
  | quiet _ _ _ _ ht =>
    simp [ht, hidle]

/-- Between two operations, a run of no more steps than there are events at the pins uses up as many of them. -/
theorem run_past_pins {s : State} {ps rest : List PinEvent} (hp : s.phase = .idle) (hpins : s.pins = ps ++ rest) :
    ∃ t, run ps.length s = .next t ∧ t.pins = rest := by
  induction ps generalizing s with
  | nil => exact ⟨s, rfl, hpins⟩
  | cons p ps ih =>
    obtain ⟨u, hu⟩ := exists_step hp
    have hupins : u.pins = ps ++ rest := by simp [step_pins hu, hpins]
    obtain ⟨t, ht, htpins⟩ := ih (step_phase hu hp) hupins
    exact ⟨t, (run_succ hu ps.length).trans ht, htpins⟩

/-- A step takes the offered word exactly where it may (60_exceptions.md R100). -/
theorem step_takes_command_iff {s : State} {w : Word} {rest : List HostEvent} (hh : s.host = .command w :: rest) :
    (∃ t, step s = .next t ∧ t.host = rest) ↔ s.pinsQuiet = true ∧ s.phase = .idle ∧ s.cycleDue = false := by
  constructor
  · rintro ⟨t, h, hrest⟩
    have hkept (ht : t.host = s.host) : False := by simp [ht, hh] at hrest
    cases step_cases h with
    | reset _ _ ht | strap _ _ _ ht | auto _ _ _ ht => exact (hkept (by simp [ht])).elim
    | illegal _ _ _ hq hp hd | command _ _ _ hq hp hd | idle _ _ hq hp hd | quiet hq hp hd => exact ⟨hq, hp, hd⟩
  · rintro ⟨hq, hp, hd⟩
    exact ⟨_, step_accepts hq hp hd hh, by simp⟩

/-! ### Reset -/

/-- Settles O1: each item of `State.reset` by evaluation. -/
theorem resetHoldsTheTableValues : Obligations.ResetHoldsTheTableValues := by
  unfold Obligations.ResetHoldsTheTableValues
  exact ⟨fun _ => rfl, rfl, rfl, rfl, rfl, rfl, rfl, rfl, rfl, rfl, rfl⟩

/-- Settles O2: the step is the reset, whose ring under ZERO lists no byte. -/
theorem resetEventRestoresEveryItem : Obligations.ResetEventRestoresEveryItem := by
  unfold Obligations.ResetEventRestoresEveryItem
  intro s rest hh
  refine ⟨_, step_reset hh, ?ring, rfl⟩
  case ring =>
    intro hzero o
    have hmem : (s.setPins rest).resetState.mem = [] := Memory.resetRing_zero hzero s.draws
    rw [State.byteAt, hmem]
    rfl

/-! ### Commands at the port -/

theorem State.outputs_cmdReady (s : State) : s.outputs.cmdReady = s.cmdReady := by
  unfold State.outputs
  split <;> simp_all

/-- Settles O12: the exception, then the command's latency on the timer of AUTO. -/
theorem illegalCommandWritesOnlyIllAndIllc : Obligations.IllegalCommandWritesOnlyIllAndIllc := by
  unfold Obligations.IllegalCommandWritesOnlyIllAndIllc
  intro s w rest c hq hp hd hh hw
  have hstep : step s = .next ((s.pastPins.setHost rest).raiseIllegal c).passLatency := by
    rw [step_quiet hq]
    exact operate_illegal (s := s.pastPins) hp hd hh hw
  refine ⟨_, hstep, ?ready, State.passLatency_eq _, ?cmd⟩
  case ready =>
    intro hrst hmode
    rw [State.outputs_cmdReady, State.cmdReady_iff]
    refine ⟨hrst, by simp [hp], ?_⟩
    rcases hmode with hcmd | hrunning
    · exact State.cycleDue_cmd (by simp [hcmd])
    · exact State.cycleDue_of_running hrunning
  case cmd =>
    intro hcmd
    rw [State.passLatency_cmd (by simp [hcmd])]
    exact ⟨rfl, rfl⟩

/-- A word offered by `offerNext` in CMD is taken by the very next step. -/
theorem step_offerNext_cmd {s : State} {w : Word} (hp : s.phase = .idle) (hm : s.cfg.mode = .cmd) :
    step (s.offerNext w) = acceptCommand w s := by
  have htaken : (s.offerNext w).pastPins.setHost s.host = s := by
    unfold State.offerNext
    rw [hm, ← hp]
    rfl
  rw [step_command_cmd (s := s.offerNext w) (w := w) (rest := s.host) rfl rfl hm rfl, htaken]

/-- Settles O16: a decoded command is legal, so `exec` and the port both give its effect. -/
theorem stepRunsTheDecodedCommand : Obligations.StepRunsTheDecodedCommand := by
  unfold Obligations.StepRunsTheDecodedCommand
  refine ⟨fun s w rest i hq hp hh hw => ⟨fun hm => ?cmd, fun hm hrunning => ?auto⟩,
    fun s nbits w i hp hm hw => ?offered⟩
  case cmd =>
    have hw' : decodeCmd (s.pastPins.setHost rest).cfg.n (s.pastPins.setHost rest).cfg.mode w = .ok i := hw
    rw [step_command_cmd hq hp hm hh, acceptCommand, hw']
    rfl
  case auto =>
    have hd : s.pastPins.cycleDue = false := State.cycleDue_of_running hrunning
    have hm' : (effect i (s.pastPins.setHost rest)).cfg.mode = .auto := by simp [hm]
    refine ⟨effect i (s.pastPins.setHost rest), exec_legal (s := s.pastPins.setHost rest) (decodeCmd_ok_legal hw), ?_⟩
    rw [step_quiet hq, operate_command (s := s.pastPins) hp hd hh hw, State.passLatency_auto hm']
  case offered =>
    rw [State.withFetchWord, step_offerNext_cmd hp hm, acceptCommand, hm, hw]

/-- Settles O17: by the pins, `step_cycle`, `step_accepts` and `step_takes_command_iff`. -/
theorem resetBeatsCycleBeatsCommand : Obligations.ResetBeatsCycleBeatsCommand := by
  unfold Obligations.ResetBeatsCycleBeatsCommand
  refine ⟨fun s rest => step_reset, ?later, ?cycle, ?command, fun s t w rest hh h hrest => ?taken⟩
  case later =>
    intro s ps rest hp hpins
    obtain ⟨t, hrun, ht⟩ := run_past_pins hp hpins
    exact ⟨t, hrun, ht, step_reset ht⟩
  case cycle =>
    intro s w rest hq hp hm hexpired hh
    exact ⟨_, step_cycle ⟨hp, (State.cycleDue_auto hm).mpr hexpired, hq⟩, rfl, by simp [hh], by simp⟩
  case command =>
    intro s w rest hq hp _ hrunning hh
    exact ⟨_, _, acceptCommand_eq w _, step_accepts hq hp (State.cycleDue_of_running hrunning) hh, by simp,
      State.passLatency_eq _⟩
  case taken => exact (step_takes_command_iff hh).mp ⟨t, h, hrest⟩

/-- Settles O18: `exists_step` between two operations, and `exec_eq` for a command. -/
theorem noConditionStopsTheBlock : Obligations.NoConditionStopsTheBlock := by
  unfold Obligations.NoConditionStopsTheBlock
  exact ⟨fun s => exists_step, fun i s => ⟨_, exec_eq i s⟩⟩

/-! ### Waits (60_exceptions.md R107) -/

/-- A step with no cycle due and no word offered: the idle time goes by, or the wait runs out. -/
theorem step_wait {s : State} (hq : s.pinsQuiet = true) (hp : s.phase = .idle) (hd : s.cycleDue = false)
    (hh : ∀ w rest, s.host ≠ .command w :: rest) :
    (∃ k rest, s.host = .idle k :: rest ∧ step s = .next ((s.pastPins.setHost rest).elapse k)) ∨
      (s.host = [] ∧ step s = .next s.pastPins.idleOut) := by
  rw [step_quiet hq]
  match hhost : s.host with
  | [] => exact .inr ⟨rfl, operate_quiet (s := s.pastPins) hp hd hhost⟩
  | .idle k :: rest => exact .inl ⟨k, rest, rfl, operate_idle (s := s.pastPins) hp hd hhost⟩
  | .command w :: rest => exact absurd hhost (hh w rest)

theorem State.elapse_timer_auto {s : State} (hm : s.cfg.mode = .auto) (k : Nat) :
    (s.elapse k).timer = s.timer.advance k := by
  simp [State.elapse, hm]

theorem State.idleOut_timer_auto {s : State} (hm : s.cfg.mode = .auto) : s.idleOut.timer = .expired := by
  simp [State.idleOut, hm]

/-- Settles O60: the two kinds of wait, and a change of the strap by `step_strap`. -/
theorem allStateIsKeptThroughAWait : Obligations.AllStateIsKeptThroughAWait := by
  unfold Obligations.AllStateIsKeptThroughAWait
  refine ⟨fun s hp hq hd hh => ?wait, fun s m rest => step_strap⟩
  obtain ⟨k, rest, hhost, hstep⟩ | ⟨hhost, hstep⟩ := step_wait hq hp hd hh
  case wait.inl =>
    have htail : s.host.tail = rest := by rw [hhost, List.tail_cons]
    refine ⟨_, hstep, ?_, fun hm => ?_, fun hm => ⟨fun k' rest' hhost' => ?_, fun hnil => ?_⟩⟩
    · rw [htail]
      exact State.elapse_eq _ k
    · rw [State.elapse_cmd (s := s.pastPins.setHost rest) hm]
      rfl
    · obtain ⟨⟨⟩, -⟩ := List.cons.inj (hhost.symm.trans hhost')
      exact State.elapse_timer_auto (s := s.pastPins.setHost rest) hm k
    · exact absurd (hhost.symm.trans hnil) (List.cons_ne_nil _ _)
  case wait.inr =>
    have htail : s.host.tail = s.host := by rw [hhost, List.tail_nil]
    refine ⟨_, hstep, ?_, fun hm => ?_, fun hm => ⟨fun k rest hidle => ?_, fun _ => ?_⟩⟩
    · rw [htail]
      exact State.idleOut_eq _
    · rw [State.idleOut_cmd (s := s.pastPins) hm]
      rfl
    · exact absurd (hhost.symm.trans hidle).symm (List.cons_ne_nil _ _)
    · exact State.idleOut_timer_auto (s := s.pastPins) hm

/-! ### The cadence of AUTO (43_framing_fsm.md R86 to R88) -/

/-- How many steps there are at most before the next autonomous cycle: each uses up an event of the host or at the pins,
or lets the timer run out. -/
def State.eventsAhead (s : State) : Nat :=
  s.host.length + s.pins.length + if s.timer = .expired then 0 else 1

/-- In AUTO, a step that is no reset and no autonomous cycle uses up at least one of these. -/
theorem eventsAhead_lt_of_step {s t : State} (h : step s = .next t) (hm : s.cfg.mode = .auto)
    (hreset : ∀ rest, s.pins ≠ .reset :: rest) (hnot : ¬ s.startsCycle) : t.eventsAhead < s.eventsAhead := by
  have htail : s.pins.tail.length ≤ s.pins.length := by simp
  have hone (u : State) : (if u.timer = .expired then 0 else 1) ≤ 1 := by split <;> omega
  have hrunning (hd : s.cycleDue = false) : (if s.timer = .expired then 0 else 1) = 1 :=
    if_neg (State.timer_ne_expired hm hd)
  have htaken {rest : List HostEvent} {e : HostEvent} (hd : s.cycleDue = false) (hh : s.host = e :: rest)
      (hhost : t.host = rest) (hpins : t.pins = s.pins.tail) : t.eventsAhead < s.eventsAhead := by
    have := hone t
    simp only [State.eventsAhead, hrunning hd, hhost, hpins, hh, List.length_cons]
    omega
  cases step_cases h with
  | reset rest hh => exact absurd hh (hreset rest)
  | strap m rest hh ht => simp [ht, State.eventsAhead, hh]
  | auto hq hp hd => exact absurd ⟨hp, hd, hq⟩ hnot
  | illegal w rest c hq hp hd hh hw ht => exact htaken hd hh (by simp [ht]) (by simp [ht])
  | command w rest i hq hp hd hh hw ht => exact htaken hd hh (by simp [ht]) (by simp [ht])
  | idle k rest hq hp hd hh ht => exact htaken hd hh (by simp [ht]) (by simp [ht])
  | quiet hq hp hd hh ht =>
    have hexpired : t.timer = .expired := ht ▸ State.idleOut_timer_auto (s := s.pastPins) hm
    have hpins : t.pins = s.pins.tail := by simp [ht]
    have hhost : t.host = s.host := by simp [ht]
    simp only [State.eventsAhead, hrunning hd, hexpired, hpins, hhost, if_true]
    omega

theorem State.noResetAhead.not_reset {s : State} (h : s.noResetAhead) (rest : List PinEvent) :
    s.pins ≠ .reset :: rest :=
  fun hh => h (by simp [hh])

theorem noResetAhead_of_step {s t : State} (h : step s = .next t) (hno : s.noResetAhead) : t.noResetAhead := by
  unfold State.noResetAhead
  rw [step_pins h]
  exact fun hmem => hno (List.mem_of_mem_tail hmem)

theorem exists_run_startsCycle {n : Nat} {s : State} (hp : s.phase = .idle) (hm : s.cfg.mode = .auto)
    (hno : s.noResetAhead) (hn : s.eventsAhead ≤ n) : ∃ k ≤ n, ∃ t, run k s = .next t ∧ t.startsCycle := by
  induction n generalizing s with
  | zero =>
    by_contra hnone
    obtain ⟨t, h⟩ := exists_step hp
    have := eventsAhead_lt_of_step h hm hno.not_reset fun hs => hnone ⟨0, le_rfl, s, rfl, hs⟩
    omega
  | succ n ih =>
    by_cases hs : s.startsCycle
    · exact ⟨0, Nat.zero_le _, s, rfl, hs⟩
    · obtain ⟨u, h⟩ := exists_step hp
      have hlt := eventsAhead_lt_of_step h hm hno.not_reset hs
      have hum : u.cfg.mode = .auto := by rw [step_keeps_cfg h hno.not_reset, hm]
      obtain ⟨k, hk, t, hrun, ht⟩ := ih (step_phase h hp) hum (noResetAhead_of_step h hno) (by omega)
      exact ⟨k + 1, by omega, t, (run_succ h k).trans hrun, ht⟩

/-- Settles O19: `eventsAhead` bounds the steps, and is at most one more than the events of both lists. -/
theorem autoCyclesRecur : Obligations.AutoCyclesRecur := by
  unfold Obligations.AutoCyclesRecur
  intro s hs hm hno
  have hbound : s.eventsAhead ≤ s.host.length + s.pins.length + 1 := by
    unfold State.eventsAhead
    split <;> omega
  obtain ⟨k, hk, t, hrun, ht⟩ := exists_run_startsCycle hs.phase_idle hm hno hbound
  exact ⟨k, hk, t, hrun, ht, step_cycle ht⟩

/-- After `k` more ticks the timer that stood at `e` ticks stands at their sum. -/
theorem CadenceTimer.advance_atTicks_eq_expired_iff {e k : Nat} :
    (CadenceTimer.atTicks e).advance k = .expired ↔ Config.cadenceTicks ≤ e + k := by
  by_cases he : Config.cadenceTicks ≤ e
  · simp [CadenceTimer.atTicks, he, CadenceTimer.advance, he.trans (Nat.le_add_right e k)]
  · simp [CadenceTimer.atTicks, he, CadenceTimer.advance]

/-- The wait fills the period, or is empty after an overrun (43_framing_fsm.md R87). -/
theorem add_cadenceWait (T e : Nat) : e + cadenceWait T e = max T e := by
  unfold cadenceWait
  split <;> omega

theorem cadenceWait_le_iff {T e k : Nat} : cadenceWait T e ≤ k ↔ T ≤ e + k := by
  have := add_cadenceWait T e
  omega

/-- Settles O20: the timer reaches the period exactly when the wait is over. -/
theorem cadenceWaitFillsThePeriod : Obligations.CadenceWaitFillsThePeriod := by
  unfold Obligations.CadenceWaitFillsThePeriod
  refine ⟨fun e k => ?expires, add_cadenceWait, by decide, fun s => rfl⟩
  case expires => rw [CadenceTimer.advance_atTicks_eq_expired_iff, cadenceWait_le_iff]

/-! ### The status outputs (30_encoding.md R46) -/

theorem ofBool_eq_ite (b : Bool) : BitVec.ofBool b = if b then 1 else 0 := by
  cases b <;> rfl

theorem State.outputs_of_ready {s : State} (h : s.cmdReady = true) :
    s.outputs =
      { cmdReady := true, rdata := s.rdata, pos := s.pos, found := if s.found then 1 else 0, foff := s.foff,
        record := s.record.toWord, ill := if s.ill then 1 else 0, illc := s.illc, phase := 0 } := by
  have hphase : s.phase = .idle := (State.cmdReady_iff.mp h).2.1
  simp [State.outputs, h, ofBool_eq_ite, hphase, Phase.code]

/-- Where no change of the strap stands first, `rst` is 0 at the next edge exactly when the pins are quiet. -/
theorem State.rst_eq_false_iff {s : State} (h : ∀ m r, s.pins ≠ .strap m :: r) :
    s.rst = false ↔ s.pinsQuiet = true := by
  unfold State.rst State.pinsQuiet
  match hpins : s.pins with
  | [] | .reset :: _ | .steady :: _ => simp [rstAtNextEdge]
  | .strap m :: r => exact absurd hpins (h m r)

/-- The port is ready exactly when the step that has the next rising edge takes the word that is offered. -/
theorem cmdReady_iff_run_takes {s : State} {w : Word} {rest : List HostEvent} {ms : List Mode} {ps : List PinEvent}
    (hh : s.host = .command w :: rest) (hpins : s.pins = ms.map PinEvent.strap ++ ps)
    (hps : ∀ m r, ps ≠ .strap m :: r) :
    s.cmdReady = true ↔ ∃ t, run (ms.length + 1) s = .next t ∧ t.host = rest := by
  induction ms generalizing s with
  | nil =>
    obtain rfl : s.pins = ps := hpins
    have hrun (t : State) : run 1 s = .next t ↔ step s = .next t := by
      unfold run
      cases step s <;> simp
    rw [State.cmdReady_iff, State.rst_eq_false_iff hps, ← step_takes_command_iff hh]
    exact exists_congr fun t => and_congr_left' (hrun t).symm
  | cons m ms ih =>
    have hfirst : s.pins = .strap m :: (ms.map PinEvent.strap ++ ps) := hpins
    have hrst : ((s.setPins (ms.map PinEvent.strap ++ ps)).setStrap m).rst = s.rst := by
      simp [State.rst, hfirst, rstAtNextEdge]
    have hready : ((s.setPins (ms.map PinEvent.strap ++ ps)).setStrap m).cmdReady = s.cmdReady := by
      rw [State.cmdReady, hrst]
      rfl
    rw [← hready, ih (s := (s.setPins (ms.map PinEvent.strap ++ ps)).setStrap m) hh rfl, List.length_cons,
      run_succ (step_strap hfirst)]

/-- Settles O57: `cmd_ready` by `cmdReady_iff`, and the handshake by `cmdReady_iff_run_takes`. -/
theorem statusOutputsShowTheRegisters : Obligations.StatusOutputsShowTheRegisters := by
  unfold Obligations.StatusOutputsShowTheRegisters
  refine ⟨fun s hpins hp hd => ?ready, fun s hbusy => ?busy, fun s w rest ms ps hh hpins hps => ?handshake⟩
  case ready =>
    have hrst : s.rst = false := Bool.eq_false_iff.mpr fun h => by
      obtain ⟨ms, rest, hms⟩ := State.rst_iff.mp h
      exact hpins ms rest hms
    exact State.outputs_of_ready (State.cmdReady_iff.mpr ⟨hrst, hp, hd⟩)
  case busy =>
    rw [State.outputs_cmdReady, Bool.eq_false_iff]
    intro hready
    obtain ⟨hrst, hp, hd⟩ := State.cmdReady_iff.mp hready
    rcases hbusy with hpins | hphase | hdue
    · simp [State.rst_iff.mpr hpins] at hrst
    · exact hphase hp
    · simp [hdue] at hd
  case handshake =>
    rw [State.outputs_cmdReady]
    exact cmdReady_iff_run_takes hh hpins hps

end Sys2Proof.Machine
end

section
/-! PROOFS. The commands one by one (40_accumulator.md section 2, 41_detector.md section 2, 42_decoder.md section 2,
43_framing_fsm.md section 1), the seam of the scan (41_detector.md R67), and the record's bytes (30_encoding.md R47). -/

namespace Sys2Proof.Machine

/-! ### The ring and the accumulator's commands -/

/-- Settles O21: the law of a read after a write in a canonical ring. -/
theorem readReturnsTheLastWrite : Obligations.ReadReturnsTheLastWrite := by
  unfold Obligations.ReadReturnsTheLastWrite
  exact fun s o b a hm => State.byteAt_writeByte hm o b a

theorem exec_append_cmd {s : State} (h : s.cfg.mode = .cmd) (b : Byte) : exec (.append b) s = .next (s.appendByte b) :=
  exec_legal (h ▸ illegalIn_cmd rfl)

/-- Settles O25: APPEND is one turn of the append loop. -/
theorem appendCommandStoresAndAdvances : Obligations.AppendCommandStoresAndAdvances := by
  unfold Obligations.AppendCommandStoresAndAdvances
  intro s b hs hmode
  exact ⟨_, exec_append_cmd hmode b, State.byteAt_appendByte_pos hs.mem_wf b,
    fun a => State.byteAt_appendByte_of_ne hs.mem_wf hs.pos_lt b, State.appendByte_pos_toNat hs.cfg_wf b,
    State.appendByte_eq b⟩

/-- Settles O26: PEEK is legal in both modes, and its offset is its own residue modulo N. -/
theorem peekCommandReadsOneByte : Obligations.PeekCommandReadsOneByte := by
  unfold Obligations.PeekCommandReadsOneByte
  intro s o ho
  rw [exec_legal (illegalIn_peek ho _), effect_peek, State.byteAt, Nat.mod_eq_of_lt ho]
  rfl

/-! ### The scan -/

/-- The seam windows have the scan indices from N - 3 on, which no scan tests (41_detector.md R67). -/
theorem scanIndex_seam {n p k : Nat} (hn : 3 ≤ n) (hk : k < 3) : scanIndex n p ((p + n - 3 + k) % n) = n - 3 + k := by
  rw [show p + n - 3 + k = p + (n - 3 + k) by omega]
  exact State.scanIndex_add (by omega)

/-- Settles O30: a scan answers scan indices below N - 3 only. -/
theorem seamWindowsAreNeverFound : Obligations.SeamWindowsAreNeverFound := by
  unfold Obligations.SeamWindowsAreNeverFound
  intro s p k hwf _ hk
  have hseam := scanIndex_seam (p := p) (Nat.le_of_succ_le hwf.1) hk
  constructor
  · intro hfound
    obtain ⟨-, -, hlt, -⟩ := State.findStart_eq_some_iff_scanIndex.mp hfound
    omega
  · intro hlone
    refine State.findStart_eq_none_iff_scanIndex.mpr fun o ho hlt => Bool.eq_false_iff.mpr fun hmatch => ?_
    rw [hlone o ho hmatch] at hlt
    omega

/-- FIND in phase IDLE writes the two result registers. -/
theorem exec_find_idle {s : State} (hp : s.phase = .idle) (hm : s.cfg.mode = .cmd) :
    exec .find s = .next (s.setScan (s.findStart s.pos.toNat)) := by
  have hphase {u : State} (hu : u.phase = .idle) : u.setPhase .idle = u := by
    rw [← hu]
    rfl
  rw [exec_find_cmd hm, State.scanReport_eq, hphase (by rw [State.setScan_phase, hp])]

/-- Settles O32: FIND's scan in both outcomes, an offset of the ring fitting `foff`. -/
theorem findCommandReportsTheScan : Obligations.FindCommandReportsTheScan := by
  unfold Obligations.FindCommandReportsTheScan
  intro s hs hmode
  rw [exec_find_idle hs.phase_idle hmode]
  refine ⟨fun o h => ⟨?_, State.toNat_ofNat12 (hs.findStart_lt h) hs.cfg_wf.2⟩, fun h => ?_⟩ <;> rw [h] <;> rfl

/-! ### The decoder -/

/-- Settles O34: of the window the record holds bytes 4 to 19 alone. -/
theorem decoderLooksOnlyAtBytes4To19 : Obligations.DecoderLooksOnlyAtBytes4To19 := by
  unfold Obligations.DecoderLooksOnlyAtBytes4To19
  intro s t fs fs' h
  rw [State.decodeFrame_bytes, State.decodeFrame_bytes]
  congr 2 <;> exact h _ (by decide) (by decide)

/-- Settles O36: DECODE is legal in CMD at an offset of the ring, and the record is that of its window. -/
theorem decodeCommandFillsTheRecord : Obligations.DecodeCommandFillsTheRecord := by
  unfold Obligations.DecodeCommandFillsTheRecord
  intro s o hmode ho
  have hlegal : (Instr.decode o).illegalIn s.cfg.n s.cfg.mode = none := hmode ▸ illegalIn_cmd (decide_eq_true ho)
  rw [exec_legal hlegal, ← State.decodeFrame_bytes]
  rfl

/-! ### The record word (30_encoding.md R47) -/

/-- A big-endian field is its four bytes one after the other (30_encoding.md R44). -/
theorem be32_eq_append (b0 b1 b2 b3 : Byte) : be32 b0 b1 b2 b3 = b0 ++ b1 ++ b2 ++ b3 := by
  rw [← BitVec.setWidth_eq (b0 ++ b1 ++ b2 ++ b3), BitVec.setWidth_append_append_append_eq_shiftLeft_setWidth_or]
  rfl

theorem Record.toWord_eq_append (r : Record) : r.toWord = r.count ++ r.x ++ r.y ++ r.z := by
  rw [← BitVec.setWidth_eq (r.count ++ r.x ++ r.y ++ r.z),
    BitVec.setWidth_append_append_append_eq_shiftLeft_setWidth_or]
  rfl

/-- Below the last of several words of one width the others stand one place lower. -/
theorem extractLsb'_append_succ {v w : Nat} (x : BitVec v) (y : BitVec w) (k : Nat) :
    (x ++ y).extractLsb' ((k + 1) * w) w = x.extractLsb' (k * w) w := by
  rw [Nat.succ_mul, BitVec.extractLsb'_append_eq_of_le (Nat.le_add_left _ _), Nat.add_sub_cancel]

theorem extractLsb'_append_zero {v w : Nat} (x : BitVec v) (y : BitVec w) : (x ++ y).extractLsb' (0 * w) w = y := by
  rw [Nat.zero_mul, BitVec.extractLsb'_append_eq_right]

/-- Of four words one after the other each is read back from its place. -/
theorem extractLsb'_append_four {w : Nat} (l : Fin 4 → BitVec w) (q : Fin 4) :
    (l 0 ++ l 1 ++ l 2 ++ l 3).extractLsb' ((3 - q) * w) w = l q := by
  match q with
  | 0 =>
    calc (l 0 ++ l 1 ++ l 2 ++ l 3).extractLsb' ((2 + 1) * w) w
        = (l 0).extractLsb' (0 * w) w := by
          rw [extractLsb'_append_succ _ _ 2, extractLsb'_append_succ _ _ 1, extractLsb'_append_succ _ _ 0]
      _ = l 0 := by rw [Nat.zero_mul, BitVec.extractLsb'_eq_self]
  | 1 =>
    calc (l 0 ++ l 1 ++ l 2 ++ l 3).extractLsb' ((1 + 1) * w) w
        = (l 0 ++ l 1).extractLsb' (0 * w) w := by
          rw [extractLsb'_append_succ _ _ 1, extractLsb'_append_succ _ _ 0]
      _ = l 1 := extractLsb'_append_zero _ _
  | 2 => exact (extractLsb'_append_succ _ _ 0).trans (extractLsb'_append_zero _ _)
  | 3 => exact extractLsb'_append_zero _ _

theorem Record.toWord_fields (r : Record) :
    r.toWord.extractLsb' 96 32 = r.count ∧ r.toWord.extractLsb' 64 32 = r.x ∧ r.toWord.extractLsb' 32 32 = r.y ∧
      r.toWord.extractLsb' 0 32 = r.z := by
  have h := extractLsb'_append_four ![r.count, r.x, r.y, r.z]
  rw [Record.toWord_eq_append]
  exact ⟨h 0, h 1, h 2, h 3⟩

theorem extractLsb'_extractLsb' {n k j len len' : Nat} (x : BitVec n) (h : j + len ≤ len') :
    (x.extractLsb' k len').extractLsb' j len = x.extractLsb' (k + j) len := by
  ext i hi
  have hlt : j + i < len' := by omega
  simp [hlt, Nat.add_assoc]

/-- Byte `r` of field `q` of the record at `fs` (30_encoding.md R43). -/
def State.recordByte (s : State) (fs : Nat) (q r : Fin 4) : Byte := s.byteAt (fs + 4 + (4 * q + r))

/-- Field `q` of the record at `fs`. -/
def State.recordField (s : State) (fs : Nat) (q : Fin 4) : Word :=
  s.recordByte fs q 0 ++ s.recordByte fs q 1 ++ s.recordByte fs q 2 ++ s.recordByte fs q 3

theorem State.decodeFrame_toWord (s : State) (fs : Nat) :
    (s.decodeFrame fs).toWord =
      s.recordField fs 0 ++ s.recordField fs 1 ++ s.recordField fs 2 ++ s.recordField fs 3 := by
  rw [Record.toWord_eq_append, State.decodeFrame_bytes]
  simp only [be32_eq_append]
  rfl

theorem State.decodeFrame_toWord_byte (s : State) (fs : Nat) (q r : Fin 4) :
    (s.decodeFrame fs).toWord.extractLsb' (8 * (15 - (4 * q + r))) 8 = s.recordByte fs q r := by
  calc (s.decodeFrame fs).toWord.extractLsb' (8 * (15 - (4 * q + r))) 8
      = ((s.decodeFrame fs).toWord.extractLsb' ((3 - q) * 32) 32).extractLsb' ((3 - r) * 8) 8 := by
        rw [extractLsb'_extractLsb' _ (by omega),
          show 8 * (15 - (4 * q.val + r.val)) = (3 - q) * 32 + (3 - r) * 8 by omega]
    _ = (s.recordField fs q).extractLsb' ((3 - r) * 8) 8 := by
        rw [s.decodeFrame_toWord]
        exact congrArg (BitVec.extractLsb' ((3 - r) * 8) 8) (extractLsb'_append_four (s.recordField fs) q)
    _ = s.recordByte fs q r := extractLsb'_append_four (s.recordByte fs q) r

/-- Settles O38: both words are their parts one after the other, most significant first; byte `i` of the record is byte
`i % 4` of field `i / 4`. -/
theorem recordWordLayout : Obligations.RecordWordLayout := by
  unfold Obligations.RecordWordLayout
  refine ⟨Record.toWord_fields, fun s hready => ?output, fun s fs i hi => ?byte⟩
  case output =>
    rw [State.outputs_cmdReady] at hready
    rw [State.outputs_of_ready hready]
  case byte =>
    have hbyte := s.decodeFrame_toWord_byte fs ⟨i / 4, by omega⟩ ⟨i % 4, by omega⟩
    rwa [State.recordByte, Nat.div_add_mod] at hbyte

/-! ### NOP and FRAME -/

/-- Settles O39: NOP is legal for every capacity and mode, and its effect is none. -/
theorem nopCommandChangesNothing : Obligations.NopCommandChangesNothing := by
  unfold Obligations.NopCommandChangesNothing
  exact fun s => exec_legal rfl

/-- Settles O41: FRAME's scan with a match, in phase IDLE before and after. -/
theorem frameCommandOnAMatch : Obligations.FrameCommandOnAMatch := by
  unfold Obligations.FrameCommandOnAMatch
  intro s fs hs hmode h
  refine ⟨?_, State.toNat_ofNat12 (hs.findStart_lt h) hs.cfg_wf.2⟩
  rw [exec_frame_cmd hmode, State.frameOnce_some h, ← hs.phase_idle]
  rfl

/-- Settles O42: FRAME's scan without a match, in phase IDLE before and after. -/
theorem frameCommandWithoutAMatch : Obligations.FrameCommandWithoutAMatch := by
  unfold Obligations.FrameCommandWithoutAMatch
  intro s hs hmode h
  rw [exec_frame_cmd hmode, State.frameOnce_none h, ← hs.phase_idle]

end Sys2Proof.Machine
end

section
/-! PROOFS. The rest of 43_framing_fsm.md: CYCLE as an append and FRAME (section 1), the cycle of AUTO (section 3), the
Source (R80, R81), and what follows a match: the next scan (R84), the second publish (R90), a frame at the
write boundary (R92). -/

namespace Sys2Proof.Machine

namespace State

variable {s t : State} {fs : Nat}

/-! ### The append of a batch -/

/-- What an append writes depends on the ring, the cursor and N alone. -/
theorem appendBytes_congr (hm : t.mem = s.mem) (hp : t.pos = s.pos) (hn : t.cfg.n = s.cfg.n) (bs : List Byte) :
    (t.appendBytes bs).mem = (s.appendBytes bs).mem ∧ (t.appendBytes bs).pos = (s.appendBytes bs).pos := by
  induction bs generalizing s t with
  | nil => exact ⟨hm, hp⟩
  | cons b bs ih =>
    refine ih (s := s.appendByte b) (t := t.appendByte b) ?_ ?_ hn
    · simp [appendByte, hm, hp, hn]
    · simp [appendByte, hp, hn]

theorem afterIngest_mem (s : State) : s.afterIngest.mem = (s.appendBytes s.batch).mem :=
  (appendBytes_congr s.afterRead_mem s.afterRead_pos (by rw [afterRead_cfg]) s.batch).1

/-- The append of a batch writes the ring and the cursor, and the read before it the Source and the counter of free
values. -/
theorem afterIngest_eq (s : State) :
    s.afterIngest =
      { s with
        mem := s.afterIngest.mem
        pos := s.afterIngest.pos
        source := s.afterRead.source
        draws := s.afterRead.draws } :=
  (appendBytes_eq s.batch).trans
    (congrArg (fun u : State => { u with mem := s.afterIngest.mem, pos := s.afterIngest.pos }) s.afterRead_eq)

theorem afterIngest_source (s : State) : s.afterIngest.source = s.afterRead.source := by rw [afterIngest_eq]

@[simp] theorem afterIngest_record (s : State) : s.afterIngest.record = s.record := by rw [afterIngest_eq]

theorem afterIngest_pos (hs : s.Inv) : s.afterIngest.pos.toNat = (s.pos.toNat + s.batch.length) % s.cfg.n := by
  have h := appendBytes_pos (s := s.afterRead) (by simpa using hs.cfg_wf) (by simpa using hs.pos_lt) s.batch
  rwa [afterRead_cfg, afterRead_pos] at h

theorem ingest_pos (hs : s.Inv) : s.ingest.pos.toNat = (s.pos.toNat + s.batch.length) % s.cfg.n := by
  rw [ingest_eq_afterIngest]
  exact afterIngest_pos hs

theorem byteAt_afterIngest_batch (hs : s.Inv) {j : Nat} (hj : j < s.batch.length) :
    s.afterIngest.byteAt (s.pos.toNat + j) = s.batch[j] :=
  byteAt_ingest _ ▸ byteAt_ingest_batch hs.cfg_wf hs.mem_wf hs.pos_lt hj

theorem byteAt_afterIngest_of_not (hs : s.Inv) (a : Nat)
    (h : ∀ j < s.batch.length, (s.pos.toNat + j) % s.cfg.n ≠ a % s.cfg.n) : s.afterIngest.byteAt a = s.byteAt a := by
  have hkept := byteAt_appendBytes_of_not (s := s.afterRead) (by simpa using hs.cfg_wf) (by simpa using hs.mem_wf)
    (by simpa using hs.pos_lt) s.batch a (by simpa using h)
  exact hkept.trans (byteAt_eq_of s.afterRead_mem (by rw [afterRead_cfg]) a)

/-! ### A cycle does not look at MODE -/

/-- The same state with another MODE. -/
def withMode (s : State) (m : Mode) : State := { s with cfg := { s.cfg with mode := m } }

theorem afterRead_withMode (s : State) (m : Mode) : (s.withMode m).afterRead = s.afterRead.withMode m := by
  have hsrc : (s.withMode m).source = s.source := rfl
  unfold afterRead
  rw [hsrc]
  split <;> rfl

theorem afterIngest_withMode (s : State) (m : Mode) : (s.withMode m).afterIngest = s.afterIngest.withMode m := by
  have hbatch : (s.withMode m).batch = s.batch := rfl
  obtain ⟨hmem, hpos⟩ := appendBytes_congr (s := s.afterRead) (t := s.afterRead.withMode m) rfl rfl rfl s.batch
  rw [afterIngest, hbatch, afterRead_withMode, appendBytes_eq, hmem, hpos, afterIngest, appendBytes_eq s.batch]
  rfl

theorem frameOnce_withMode (s : State) (m : Mode) : (s.withMode m).frameOnce = s.frameOnce.withMode m := by
  have hscan : (s.withMode m).findStart (s.withMode m).pos.toNat = s.findStart s.pos.toNat := findStart_eq_of rfl rfl _
  cases h : s.findStart s.pos.toNat with
  | none =>
    rw [frameOnce_none h, frameOnce_none (hscan.trans h)]
    rfl
  | some fs =>
    rw [frameOnce_some h, frameOnce_some (hscan.trans h)]
    rfl

theorem cycleOnce_withMode (s : State) (m : Mode) : (s.withMode m).cycleOnce = s.cycleOnce.withMode m := by
  rw [cycleOnce_eq_frameOnce, cycleOnce_eq_frameOnce, afterIngest_withMode, frameOnce_withMode]

end State

/-! ### CYCLE -/

/-- Settles O43: the append of the batch, then what FRAME does from there. -/
theorem cycleCommandIngestsThenFrames : Obligations.CycleCommandIngestsThenFrames := by
  unfold Obligations.CycleCommandIngestsThenFrames
  intro s hs hmode
  refine ⟨s.afterIngest, s.cycleOnce, exec_cycle_cmd hmode, ?frame, ?framed, s.afterIngest_eq, State.afterIngest_pos hs,
    fun j => State.byteAt_afterIngest_batch hs, ?others⟩
  case frame =>
    rw [State.cycleOnce_eq_frameOnce]
    exact exec_frame_cmd (by rwa [State.afterIngest_cfg])
  case framed =>
    rw [State.cycleOnce_eq_frameOnce]
    conv_lhs => rw [State.frameOnce_eq, ← hs.phase_idle, ← s.afterIngest_phase]
  case others =>
    intro a ha hnone
    exact State.byteAt_afterIngest_of_not hs a (by rwa [Nat.mod_eq_of_lt ha])

/-- Settles O44: the cycle of AUTO is that of the same state in CMD, and the timer at its elapsed time. -/
theorem autonomousCycleDoesWhatCycleDoes : Obligations.AutonomousCycleDoesWhatCycleDoes := by
  unfold Obligations.AutonomousCycleDoesWhatCycleDoes
  intro s hs hmode hexpired hq
  have hstarts : s.startsCycle := ⟨hs.phase_idle, (State.cycleDue_auto hmode).mpr hexpired, hq⟩
  refine ⟨_, _, step_cycle hstarts, exec_cycle_cmd (s := s.pastPins.withMode .cmd) rfl, ?same⟩
  case same =>
    rw [State.cycleOnce_withMode, State.autoCycle_eq, ← s.pastPins_cfg, ← s.pastPins.cycleOnce_cfg]
    rfl

/-- Settles O45: the batch is the first N bytes of the answer, and ERROR and the empty answer leave the same state after
the read. -/
theorem oneBoundedSourceReadPerCycle : Obligations.OneBoundedSourceReadPerCycle := by
  unfold Obligations.OneBoundedSourceReadPerCycle
  refine ⟨fun s _ => s.batch_length, ?bytes, ?error⟩
  case bytes =>
    intro s t bs src hmode hsrc h
    have hbatch : s.batch = bs.take s.cfg.n := by simp [State.batch, hsrc, Config.maxBatch]
    rw [exec_cycle_cmd hmode, State.cycleOnce_eq_frameOnce] at h
    cases h
    refine ⟨hbatch, ?_, ?_⟩
    · rw [State.frameOnce_mem, State.afterIngest_mem, hbatch]
    · rw [State.frameOnce_source, State.afterIngest_source, State.afterRead, hsrc]
      rfl
  case error =>
    intro s src hmode
    rw [exec_cycle_cmd (s := { s with source := .error :: src }) hmode,
      exec_cycle_cmd (s := { s with source := .bytes [] :: src }) hmode, State.cycleOnce_eq_frameOnce,
      State.cycleOnce_eq_frameOnce]
    simp [State.afterIngest, State.batch, State.afterRead, State.setSource]

/-- Moving on by `k` ends on the same residue exactly when `k` is a multiple of N. -/
theorem add_mod_eq_mod_iff {n a k : Nat} : (a + k) % n = a % n ↔ k % n = 0 :=
  Nat.add_modEq_left_iff.trans Nat.dvd_iff_mod_eq_zero

/-- Settles O46: a scan without a match moves nothing, so the cursor is where the append has left it. -/
theorem noMatchMovesTheCursorByTheBatchOnly : Obligations.NoMatchMovesTheCursorByTheBatchOnly := by
  unfold Obligations.NoMatchMovesTheCursorByTheBatchOnly
  intro s hs hmode h
  rw [State.findStart_ingest] at h
  have hpos := State.afterIngest_pos hs
  refine ⟨_, exec_cycle_cmd hmode, ?_⟩
  rw [State.cycleOnce_eq_frameOnce, State.frameOnce_none h]
  refine ⟨s.afterIngest_record, s.afterIngest_pub, rfl, rfl, hpos, ?same⟩
  case same =>
    rw [← BitVec.toNat_inj, hpos, ← add_mod_eq_mod_iff (a := s.pos.toNat), Nat.mod_eq_of_lt hs.pos_lt]

/-! ### After a match -/

/-- FRAME and CYCLE, where they find, end in the scan of a state that meets the invariant: the state before FRAME, or
that after CYCLE's append. -/
theorem exists_frameOnce_of_match {s t : State} {fs : Nat} (hs : s.Inv) (hmode : s.cfg.mode = .cmd)
    (h : (exec .frame s = .next t ∧ s.findStart s.pos.toNat = some fs) ∨
      (exec .cycle s = .next t ∧ s.ingest.findStart s.ingest.pos.toNat = some fs)) :
    ∃ u : State, u.Inv ∧ u.cfg = s.cfg ∧ u.pub = s.pub ∧ u.findStart u.pos.toNat = some fs ∧ t = u.frameOnce := by
  rcases h with ⟨hexec, hfind⟩ | ⟨hexec, hfind⟩
  · rw [exec_frame_cmd hmode] at hexec
    cases hexec
    exact ⟨s, hs, rfl, rfl, hfind, rfl⟩
  · rw [exec_cycle_cmd hmode, State.cycleOnce_eq_frameOnce] at hexec
    cases hexec
    exact ⟨s.afterIngest, hs.afterIngest, s.afterIngest_cfg, s.afterIngest_pub, s.findStart_ingest ▸ hfind, rfl⟩

/-- Settles O48: the cursor stands at `(fs + 20) mod N` after the match, and every append moves it on from there. -/
theorem nextScanStartsPastTheBatch : Obligations.NextScanStartsPastTheBatch := by
  unfold Obligations.NextScanStartsPastTheBatch
  intro s t fs hs hmode h
  obtain ⟨u, hu, hcfg, -, hfind, rfl⟩ := exists_frameOnce_of_match hs hmode h
  have hpos := State.frameOnce_pos_toNat hu.cfg_wf hfind
  have ht := hu.frameOnce
  have hnext : u.frameOnce.ingest.pos.toNat = (fs + 20 + u.frameOnce.batch.length) % s.cfg.n := by
    rw [State.ingest_pos ht, hpos, State.frameOnce_cfg, Nat.mod_add_mod, hcfg]
  refine ⟨hnext, by rw [hnext, add_mod_eq_mod_iff], fun bs => ?_⟩
  rw [State.appendBytes_pos ht.cfg_wf ht.pos_lt, hpos, State.frameOnce_cfg, Nat.mod_add_mod, hcfg]

/-! ### The frame that was consumed (R90) -/

/-- What lies `d` past the start of a scan, modulo N, has scan index `d`. -/
theorem scanIndex_eq_of_mod {n p o d : Nat} (ho : o < n) (hd : d < n) (h : o % n = (p + d) % n) :
    scanIndex n (p % n) o = d := by
  rw [← Nat.mod_eq_of_lt ho, h, ← Nat.mod_add_mod]
  exact State.scanIndex_add hd

namespace State

/-- The comparator depends on the four bytes of its window. -/
theorem sigMatch_congr {s t : State} {o : Nat} (h : ∀ i < 4, s.byteAt (o + i) = t.byteAt (o + i)) :
    s.sigMatch o = t.sigMatch o := by
  have h0 : s.byteAt o = t.byteAt o := h 0 (by decide)
  rw [Bool.eq_iff_iff, sigMatch_iff, sigMatch_iff, h0, h 1 (by decide), h 2 (by decide), h 3 (by decide)]

section NextCycle

variable {t : State} {fs : Nat} (ht : t.Inv) (hn : 20 ≤ t.cfg.n) (hfs : fs < t.cfg.n)
  (hpos : t.pos.toNat = (fs + 20) % t.cfg.n) (hk : t.batch.length ≤ t.cfg.n - 20)

include ht hn hpos hk

/-- A batch of at most N - 20 bytes, appended behind the frame at `fs`, leaves that frame's 20 bytes. -/
theorem byteAt_ingest_frame {i : Nat} (hi : i < 20) : t.ingest.byteAt (fs + i) = t.byteAt (fs + i) := by
  rw [byteAt_ingest]
  refine byteAt_afterIngest_of_not ht (fs + i) fun j hj hland => ?_
  rw [hpos, Nat.mod_add_mod, Nat.add_assoc] at hland
  have := eq_of_add_mod_eq (by omega) (by omega) hland
  omega

include hfs

/-- The frame ends where the batch begins, so its scan index is what the two leave of the ring. -/
theorem scanIndex_ingest_frame :
    scanIndex t.cfg.n t.ingest.pos.toNat fs = t.cfg.n - 20 - t.batch.length := by
  rw [ingest_pos ht, hpos, Nat.mod_add_mod]
  refine scanIndex_eq_of_mod hfs (by omega) ?_
  rw [show fs + 20 + t.batch.length + (t.cfg.n - 20 - t.batch.length) = fs + t.cfg.n by omega, Nat.add_mod_right]

/-- Unless a window of a smaller scan index matches, the next cycle finds the frame again. -/
theorem findStart_ingest_frame (hmatch : t.sigMatch fs = true)
    (hfirst : ∀ o < t.cfg.n, scanIndex t.cfg.n t.ingest.pos.toNat o < t.cfg.n - 20 - t.batch.length →
      t.ingest.sigMatch o = false) :
    t.ingest.findStart t.ingest.pos.toNat = some fs := by
  have hindex := scanIndex_ingest_frame ht hn hfs hpos hk
  have hkept : t.ingest.sigMatch fs = t.sigMatch fs :=
    sigMatch_congr fun i hi => byteAt_ingest_frame ht hn hpos hk (by omega)
  rw [findStart_eq_some_iff_scanIndex, ingest_cfg, hindex]
  exact ⟨hfs, hkept.trans hmatch, by omega, hfirst⟩

end NextCycle

/-- The windows that start in the newest batch have the largest scan indices. -/
theorem le_scanIndex_ingest_batch {t : State} (ht : t.Inv) {j : Nat} (hj : j < t.batch.length) :
    t.cfg.n - t.batch.length ≤ scanIndex t.cfg.n t.ingest.pos.toNat ((t.pos.toNat + j) % t.cfg.n) := by
  have hk := t.batch_length
  have hindex : scanIndex t.cfg.n ((t.pos.toNat + t.batch.length) % t.cfg.n) ((t.pos.toNat + j) % t.cfg.n) =
      t.cfg.n - t.batch.length + j := by
    refine scanIndex_eq_of_mod (Nat.mod_lt _ ht.n_pos) (by omega) ?_
    rw [Nat.mod_mod, show t.pos.toNat + t.batch.length + (t.cfg.n - t.batch.length + j) = t.pos.toNat + j + t.cfg.n by
      omega, Nat.add_mod_right]
  rw [ingest_pos ht, hindex]
  exact Nat.le_add_right _ _

theorem sigMatch_of_findStart {s : State} {p fs : Nat} (h : s.findStart p = some fs) : s.sigMatch fs = true :=
  (findStart_eq_some_iff_scanIndex.mp h).2.1

end State

/-- Settles O49: the batch stands behind the frame, which therefore keeps its bytes and is found again, last but for the
windows in the batch. -/
theorem consumedFrameIsPublishedAgain : Obligations.ConsumedFrameIsPublishedAgain := by
  unfold Obligations.ConsumedFrameIsPublishedAgain
  intro s t fs hs hmode hn h hk
  obtain ⟨u, hu, hcfg, hpub, hfind, htu⟩ := exists_frameOnce_of_match hs hmode h
  have ht : t.Inv := htu ▸ hu.frameOnce
  have htcfg : t.cfg = s.cfg := by rw [htu, State.frameOnce_cfg, hcfg]
  have hpos : t.pos.toNat = (fs + 20) % t.cfg.n := by
    rw [htu, State.frameOnce_cfg]
    exact State.frameOnce_pos_toNat hu.cfg_wf hfind
  have htu_byte (a : Nat) : t.byteAt a = u.byteAt a := by
    rw [htu]
    exact State.byteAt_eq_of u.frameOnce_mem (by rw [State.frameOnce_cfg]) a
  rw [← htcfg] at hmode hn hk ⊢
  have hfs : fs < t.cfg.n := htcfg ▸ hcfg ▸ hu.findStart_lt hfind
  have hframe {i : Nat} (hi : i < 20) := State.byteAt_ingest_frame ht hn hpos hk hi
  refine ⟨fun i => hframe, State.scanIndex_ingest_frame ht hn hfs hpos hk, fun j => State.le_scanIndex_ingest_batch ht,
    fun hfirst => ?again⟩
  case again =>
    have hmatch : t.sigMatch fs = true :=
      (State.sigMatch_congr fun i _ => htu_byte (fs + i)).trans (State.sigMatch_of_findStart hfind)
    have hagain := State.findStart_ingest_frame ht hn hfs hpos hk hmatch hfirst
    have hrecord : t.ingest.decodeFrame fs = t.record := by
      rw [htu, State.frameOnce_record_of_match hfind, ← htu]
      exact decoderLooksOnlyAtBytes4To19 _ _ fs fs fun i _ hi => (hframe hi).trans (htu_byte _)
    have htpub : t.pub = s.pub ++ [t.record] := by
      rw [← hpub, htu, State.frameOnce_pub_of_match hfind, State.frameOnce_record_of_match hfind]
    refine ⟨t.cycleOnce, exec_cycle_cmd hmode, ((State.cycleOnce_reports ht).1 fs hagain).2, ?pos, ?record, ?pub⟩
    case pos => rw [← BitVec.toNat_inj, State.cycleOnce_pos_toNat ht.cfg_wf hagain, hpos]
    case record => rw [State.cycleOnce, State.frameOnce_record_of_match hagain, hrecord]
    case pub => rw [State.cycleOnce_pub_of_match hagain, hrecord, htpub, List.append_assoc, List.singleton_append]

/-! ### A frame at the write boundary (R92) -/

/-- From a window of scan index `d` on, the offset `i` further is, past the end of the ring, one of the oldest. -/
theorem add_mod_of_scanIndex_add_eq {n p o i j : Nat} (ho : o < n) (h : scanIndex n p o + i = j + n) :
    (o + i) % n = (p + j) % n := by
  calc (o + i) % n
      = ((p + scanIndex n p o) % n + i) % n := by rw [State.add_scanIndex ho]
    _ = (p + (j + n)) % n := by rw [Nat.mod_add_mod, Nat.add_assoc, h]
    _ = (p + j) % n := by rw [← Nat.add_assoc, Nat.add_mod_right]

/-- Settles O51: the ring ends before the window does, so its tail and the cursor after it lie among the oldest
bytes. -/
theorem partialFrameDecodesStaleBytes : Obligations.PartialFrameDecodesStaleBytes := by
  unfold Obligations.PartialFrameDecodesStaleBytes
  intro s u fs hs hmode hu hfind hlate
  obtain ⟨hcfg, hmem, hpub⟩ : u.cfg = s.cfg ∧ u.mem.wf ∧ u.pub = s.pub := by
    rcases hu with rfl | rfl
    · exact ⟨rfl, hs.mem_wf, rfl⟩
    · exact ⟨s.ingest_cfg, State.ingest_mem_wf hs.mem_wf, s.ingest_pub⟩
  rw [← hcfg] at hlate ⊢
  have hwf : u.cfg.wf := hcfg ▸ hs.cfg_wf
  obtain ⟨hfs, -, hindex, -⟩ := State.findStart_eq_some_iff_scanIndex.mp hfind
  obtain ⟨m, hm⟩ : ∃ m, m + u.cfg.n = scanIndex u.cfg.n u.pos.toNat fs + 20 :=
    ⟨_, Nat.sub_add_cancel hlate.le⟩
  have hpos : u.frameOnce.pos.toNat = (u.pos.toNat + m) % u.cfg.n := by
    rw [State.frameOnce_pos_toNat hwf hfind]
    exact add_mod_of_scanIndex_add_eq hfs hm.symm
  have happend (b : Byte) (a : Nat) : (u.frameOnce.appendByte b).byteAt a =
      if a % u.cfg.n = (u.pos.toNat + m) % u.cfg.n then b else u.byteAt a := by
    rw [State.byteAt_appendByte (by rwa [State.frameOnce_mem]), hpos, State.frameOnce_cfg, Nat.mod_mod,
      State.byteAt_eq_of u.frameOnce_mem (by rw [State.frameOnce_cfg])]
  refine ⟨u.frameOnce, m, ?frame, ?cycle, hm, by omega, by omega, ?tail, ?pub, hpos,
    fun b => ⟨?next, fun hmn i hi => ?kept⟩⟩
  case frame =>
    rintro rfl
    exact exec_frame_cmd hmode
  case cycle =>
    rintro rfl
    exact exec_cycle_cmd hmode
  case tail =>
    intro i hi hi'
    rw [State.readWindow_get fs 20 i hi']
    exact congrArg some (State.byteAt_congr (add_mod_of_scanIndex_add_eq hfs (by omega)))
  case pub => rw [State.frameOnce_pub_of_match hfind, hpub]
  case next => rw [happend, if_pos rfl]
  case kept =>
    have hne : (u.pos.toNat + i) % u.cfg.n ≠ (u.pos.toNat + m) % u.cfg.n :=
      fun h => hi.ne (eq_of_add_mod_eq (hi.trans hmn) hmn h)
    rw [happend, if_neg hne]

end Sys2Proof.Machine
end

section
/-! PROOFS. Command programs on the whole machine in CMD mode: a stream of APPENDs reads back through every window
(40_accumulator.md section 1), and a pushed frame decodes to its record (42_decoder.md section 1). -/

namespace Sys2Proof.Machine

namespace State

variable {s : State}

/-! ### A stream of bytes in the ring -/

/-- The last N bytes of a stream stand in the ring, each at its stream index from the cursor on. -/
theorem byteAt_appendBytes_stream (hs : s.Inv) (bs : List Byte) {i : Nat} (hi : i < bs.length)
    (hlast : bs.length - s.cfg.n ≤ i) : (s.appendBytes bs).byteAt (s.pos.toNat + i) = bs[i] := by
  refine byteAt_appendBytes_last hs.cfg_wf hs.mem_wf hs.pos_lt bs i hi fun j hj hlt hland => ?_
  rw [← Nat.add_sub_of_le hlt.le, ← Nat.add_assoc, ← Nat.add_zero (s.pos.toNat + i), add_assoc _ 0, zero_add] at hland
  have := eq_of_add_mod_eq (by omega) hs.n_pos hland
  omega

/-- So every window over them reads the stream, across the wrap or not. -/
theorem readWindow_appendBytes (hs : s.Inv) (bs : List Byte) {i k : Nat} (hlast : bs.length - s.cfg.n ≤ i)
    (hk : i + k ≤ bs.length) : (s.appendBytes bs).readWindow (s.pos.toNat + i) k = (bs.drop i).take k := by
  refine List.ext_getElem (by simp; omega) fun j hj _ => ?_
  rw [readWindow_length] at hj
  simpa [readWindow, Nat.add_assoc] using byteAt_appendBytes_stream hs bs (i := i + j) (by omega) (by omega)

/-- A stream no longer than the ring stands in the window it was appended to. -/
theorem readWindow_appendBytes_all (hs : s.Inv) {bs : List Byte} (hlen : bs.length ≤ s.cfg.n) :
    (s.appendBytes bs).readWindow s.pos.toNat bs.length = bs := by
  simpa using readWindow_appendBytes hs bs (i := 0) (k := bs.length) (by omega) (by omega)

end State

/-! ### Runs of a program -/

theorem run_add {s t : State} {k : Nat} (h : run k s = .next t) (j : Nat) : run (k + j) s = run j t := by
  induction k generalizing s with
  | zero =>
    cases h
    rw [Nat.zero_add]
  | succ k ih =>
    cases hstep : step s with
    | next u =>
      rw [run_succ hstep] at h
      rw [Nat.succ_add, run_succ hstep, ih h]
    | fault f => simp [run, hstep] at h
    | refused r => simp [run, hstep] at h

/-- The words of the APPENDs of a stream, as they stand at the command port. -/
def appendEvents (bs : List Byte) : List HostEvent := bs.map fun b => .command (encode (.append b))

/-- In CMD mode, with no event to come at the pins, the next step is the effect of the legal command that is offered. -/
theorem step_offered {s : State} {i : Instr} (hm : s.cfg.mode = .cmd) (hp : s.phase = .idle) (hpins : s.pins = [])
    (hi : i.offsetInRange s.cfg.n = true) (rest : List HostEvent) :
    step (s.setHost (.command (encode i) :: rest)) = .next (effect i (s.setHost rest)) := by
  have hq : (s.setHost (.command (encode i) :: rest)).pinsQuiet = true := by simp [State.pinsQuiet, hpins]
  have htaken : (s.setHost (.command (encode i) :: rest)).pastPins.setHost rest = s.setHost rest := by
    unfold State.pastPins
    rw [State.setHost_pins, hpins, List.tail_nil, ← hpins]
    rfl
  have hwf : i.wf s.cfg.n s.cfg.mode = true := illegalIn_eq_none.mp (hm ▸ illegalIn_cmd hi)
  rw [step_command_cmd hq hp hm rfl, htaken]
  exact acceptCommand_ok (s := s.setHost rest) (decodeCmd_encode hwf)

/-- A run of APPENDs appends their bytes, and leaves what is offered behind them. -/
theorem run_appends {s : State} (hm : s.cfg.mode = .cmd) (hp : s.phase = .idle) (hpins : s.pins = []) (bs : List Byte)
    (rest : List HostEvent) :
    run bs.length (s.setHost (appendEvents bs ++ rest)) = .next ((s.appendBytes bs).setHost rest) := by
  induction bs generalizing s with
  | nil => rfl
  | cons b bs ih =>
    have hstep := step_offered (i := .append b) hm hp hpins rfl (appendEvents bs ++ rest)
    exact (run_succ hstep bs.length).trans (ih (s := s.appendByte b) hm hp hpins)

/-- A run of APPENDs and one further command. -/
theorem run_appends_command {s : State} {i : Instr} (hm : s.cfg.mode = .cmd) (hp : s.phase = .idle)
    (hpins : s.pins = []) (hi : i.offsetInRange s.cfg.n = true) (bs : List Byte) :
    run (bs.length + 1) (s.setHost (appendEvents bs ++ [.command (encode i)])) =
      .next (effect i ((s.appendBytes bs).setHost [])) := by
  have hstep := step_offered (s := s.appendBytes bs) (i := i) (by simpa using hm) (by simpa using hp)
    (by simpa using hpins) (by simpa using hi) []
  rw [run_add (run_appends hm hp hpins bs _), run_succ hstep, run_zero]

theorem offer_of_nil {s : State} (h : s.host = []) (ws : List Word) : s.offer ws = s.setHost (ws.map .command) := by
  rw [State.offer, h, List.nil_append]

/-- Settles O27: the program's run is one append of the stream, whose last N bytes stay. -/
theorem appendedStreamReadsBackAcrossTheWrap : Obligations.AppendedStreamReadsBackAcrossTheWrap := by
  unfold Obligations.AppendedStreamReadsBackAcrossTheWrap
  intro s bs hs hm hh hpins hpos
  have hrun := run_appends hm hs.phase_idle hpins bs []
  rw [List.append_nil] at hrun
  have hzero : s.pos.toNat = 0 := by rw [hpos]; rfl
  have hcfg : ((s.appendBytes bs).setHost []).cfg = s.cfg := State.appendBytes_cfg bs
  refine ⟨(s.appendBytes bs).setHost [], ?run, ?done, ?cursor, fun i hi hlast => ?byte, fun i k hlast hk => ?window⟩
  case run =>
    rw [offer_of_nil hh, List.map_map]
    exact hrun
  case done => exact ⟨hcfg ▸ hm, rfl, (State.appendBytes_phase bs).trans hs.phase_idle⟩
  case cursor => simpa [hzero] using State.appendBytes_pos hs.cfg_wf hs.pos_lt bs
  case byte =>
    have h := State.byteAt_appendBytes_stream hs bs hi hlast
    rw [hzero, Nat.zero_add] at h
    rw [← hcfg, State.byteAt_mod]
    exact h
  case window =>
    have h := State.readWindow_appendBytes hs bs hlast hk
    rw [hzero, Nat.zero_add] at h
    rw [← hcfg, State.readWindow_mod]
    exact h

/-! ### PUSHFRAME and DECODE -/

theorem Record.frameBytes_length (r : Record) : r.frameBytes.length = 20 := rfl

theorem assemble_pushFrame_decode {n o : Nat} (ho : o < n) (r : Record) :
    Assembler.assemble n [.pushFrame r.count.toNat r.x.toNat r.y.toNat r.z.toNat, .decode o] =
      some (r.frameBytes.map (fun b => encode (.append b)) ++ [encode (.decode (BitVec.ofNat 12 o))]) := by
  have hdecode : Assembler.expand n (.decode o) = some [.decode (BitVec.ofNat 12 o)] := by
    simp [Assembler.expand, Assembler.below, ho]
  simp [Assembler.assemble, Assembler.expand_pushFrame, hdecode]

/-- A program of APPENDs and a DECODE changes the ring, the cursor and the record, and nothing else. -/
theorem effect_decode_appendBytes {s : State} (hh : s.host = []) (bs : List Byte) (o : Offset) (r : Record)
    (hr : (s.appendBytes bs).decodeFrame o.toNat = r) :
    effect (.decode o) ((s.appendBytes bs).setHost []) =
      { s with mem := (s.appendBytes bs).mem, pos := (s.appendBytes bs).pos, record := r } := by
  have hframe : ((s.appendBytes bs).setHost s.host).setRecord r =
      { s with mem := (s.appendBytes bs).mem, pos := (s.appendBytes bs).pos, record := r } := by
    rw [State.appendBytes_eq]
    rfl
  rw [← hframe, ← hr, hh]
  rfl

/-- Settles O37: the 20 APPENDs leave the frame in the window at the old cursor, which DECODE reads. -/
theorem pushedFrameDecodesToItsRecord : Obligations.PushedFrameDecodesToItsRecord := by
  unfold Obligations.PushedFrameDecodesToItsRecord
  intro s r ws hs hm hh hpins hn hws
  have hrecord : (s.appendBytes r.frameBytes).decodeFrame s.pos.toNat = r :=
    State.decodeFrame_of_frameBytes (State.readWindow_appendBytes_all hs (r.frameBytes_length.trans_le hn))
  have hrun := run_appends_command (i := .decode s.pos) hm hs.phase_idle hpins (decide_eq_true hs.pos_lt) r.frameBytes
  rw [effect_decode_appendBytes hh r.frameBytes s.pos r hrecord] at hrun
  rw [assemble_pushFrame_decode hs.pos_lt, BitVec.ofNat_toNat, BitVec.setWidth_eq] at hws
  obtain rfl := Option.some.inj hws
  have hcursor := State.appendBytes_pos hs.cfg_wf hs.pos_lt r.frameBytes
  rw [r.frameBytes_length] at hcursor
  generalize (s.appendBytes r.frameBytes).mem = mem, (s.appendBytes r.frameBytes).pos = pos at hrun hcursor
  refine ⟨{ s with mem := mem, pos := pos, record := r }, ?run, ⟨hm, hh, hs.phase_idle⟩, rfl, hcursor, rfl⟩
  case run =>
    rw [offer_of_nil hh, List.map_append, List.map_map, List.length_append, List.length_map, List.map_singleton,
      List.length_singleton]
    exact hrun

end Sys2Proof.Machine
end
